-- ==== Sys2Proof/Word.lean ====
section
/-! DEFINITION. The two bit-vector types of the core: 32-bit words and bytes (spec 00_scope.md R9, R10). -/

namespace Sys2Proof

/-- A word: "an unsigned 32-bit value" (R9). `+` on words is addition modulo 2^32 and `^^^`, `&&&`, `|||`,
`~~~` are the bitwise operators (R10). -/
abbrev Word := BitVec 32

/-- One byte of a byte string (R11) or of a buffer (R25, R26, R28). -/
abbrev Byte := BitVec 8

end Sys2Proof
end

