-- ==== Sys2Proof/Syntax.lean ====
section
/-! DEFINITION. The commands of the core, one constructor per row of spec/opcode_table.json (30_encoding.md R82). -/

namespace Sys2Proof

/-- A command. `alg` is the ALG field and `len` the LEN field of the command word, as the numbers R81 makes of them; a
command carries only the fields its opcode reads (R82, R85). Values a command must refuse (ALG 2, 3; a long LEN) are
commands all the same: they end in an error code (R83, R84). -/
inductive Instr where
  /-- `INIT alg`, OP 0x1: start a plain digest computation (44_driver.md R202). -/
  | init (alg : Nat)
  /-- `BLOCK`, OP 0x2: compress one full 64-byte block (44_driver.md R203). -/
  | block
  /-- `FINAL n`, OP 0x3: pad the tail of `len` bytes, compress and finalise (44_driver.md R204). -/
  | final (len : Nat)
  /-- `HMAC_INIT alg, k`, OP 0x4: start an HMAC computation with a `len`-byte key (45_hmac.md R220). -/
  | hmacInit (alg : Nat) (len : Nat)
  deriving DecidableEq, Repr

end Sys2Proof
end

