-- ==== Sys2Proof/WellFormed.lean ====
section
/-! DEFINITION. Which terms of `Instr` are commands that a command word can express (30_encoding.md R81, R88). -/

namespace Sys2Proof

/-- ALG has 2 bits: "a number 0 .. 3" (R81, R88). -/
def algFits (alg : Nat) : Bool := alg < 4

/-- LEN has 7 bits: "a byte count 0 .. 127" (R81, R84, R88). -/
def lenFits (len : Nat) : Bool := len < 128

/-- The fields of a command fit the fields of its word. -/
def Instr.wellFormed : Instr → Bool
  | .init alg => algFits alg
  | .block => true
  | .final len => lenFits len
  | .hmacInit alg len => algFits alg && lenFits len

/-- `WellFormed i`: `i` is a command some command word expresses. -/
abbrev WellFormed (i : Instr) : Prop := i.wellFormed = true

end Sys2Proof
end

