-- ==== Sys2Proof/Decode.lean ====
section
/-! DEFINITION. Decoding of command words, total on all of them, and the encoder (30_encoding.md R80 to R90). A command
exists only as ONE 32-bit word written to CMD: the core keeps no command in memory as bytes (R80, 20_memory.md R67). -/

namespace Sys2Proof

/-- Why a word is no command. -/
inductive DecodeError where
  /-- OP is 0x0 or 0x5 .. 0xF: "reserved opcodes ... are illegal" (R86). The engine ends such a command in
  ILLEGAL_COMMAND (60_exceptions.md R242); it is not a stop. -/
  | illegalOpcode (op : Nat)
  deriving DecidableEq, Repr

/-- `OP = cmd[3:0]` (R81). -/
def opField (w : Word) : Nat := (w.extractLsb' 0 4).toNat

/-- `ALG = cmd[5:4]` (R81). -/
def algField (w : Word) : Nat := (w.extractLsb' 4 2).toNat

/-- `LEN = cmd[14:8]` (R81). -/
def lenField (w : Word) : Nat := (w.extractLsb' 8 7).toNat

/-- The opcode map of R82. Bits 7:6 and 31:15, and a field the opcode does not read, are ignored (R85). -/
def decode (w : Word) : Except DecodeError Instr :=
  match opField w with
  | 0x1 => .ok (.init (algField w))
  | 0x2 => .ok .block
  | 0x3 => .ok (.final (lenField w))
  | 0x4 => .ok (.hmacInit (algField w) (lenField w))
  | op => .error (.illegalOpcode op)

/-- A command word from its three fields (R81), the ignored bits written 0 (R85). -/
def commandWord (op alg len : Nat) : Word := BitVec.ofNat 32 (op + alg * 2 ^ 4 + len * 2 ^ 8)

/-- The word of a command, as R88 writes it: `(alg << 4) | 0x1`, `0x2`, `(n << 8) | 0x3`, `(k << 8) | (alg << 4) | 0x4`. -/
def encode : Instr → Word
  | .init alg => commandWord 0x1 alg 0
  | .block => commandWord 0x2 0 0
  | .final len => commandWord 0x3 0 len
  | .hmacInit alg len => commandWord 0x4 alg len

/-- The bits of its word a command reads: OP, and of ALG and LEN those its opcode reads; every other bit is ignored (R82, R85). -/
def Instr.readBits : Instr → Word
  | .init _ => 0x0000003F
  | .block => 0x0000000F
  | .final _ => 0x00007F0F
  | .hmacInit _ _ => 0x00007F3F

/-- The command the decoder reads from an instruction whose bits are `w`, numbered as spec/opcode_table.json numbers
them (bit 0 the least significant bit of the one command word); the bits above `nbits` are 0. -/
def decodeTableWord (nbits w : Nat) : Option Instr :=
  match decode (BitVec.ofNat 32 (w % 2 ^ nbits)) with
  | .ok i => some i
  | .error _ => none

end Sys2Proof
end

