-- ==== Sys2Proof/Config.lean ====
section
/-! DEFINITION. The free values: what the spec leaves open and no proof may know. Each is an `opaque` constant
with no body. Every one takes the number of the draw (State's counter `draws`, which every use advances) and the
contents of the core at the draw, its BASE among them, so that no claim of independence from the data can be proved about it.
A draw is under no law (00_scope.md R11). That it is a function of these arguments is the model's form: two draws with equal
arguments are equal, which can be two cores only if they stand at one BASE (DESIGN CHOICE, log entry 21). -/

namespace Sys2Proof.Config

/-- Byte `j` of BLK after a BLOCK, FINAL or HMAC_INIT that completes without error: "every byte of BLK is unspecified
(a draw)" (10_state.md R25; 93_implementation_defined.md S2). Arguments: draw number, contents, byte index. -/
opaque freeByte (draw : Nat) (contents : List Nat) (j : Nat) : Byte

/-- The word a host read returns from a register other than ID, STATUS and the reserved offsets while BUSY = 1
(20_memory.md R56; 93_implementation_defined.md S1). -/
opaque freeWord (draw : Nat) (contents : List Nat) : Word

/-- The parameter LATENCY (00_scope.md R7, 70_reset_and_hazards.md R282): how many host turns pass between the acceptance
of a command and the engine's step. A `Nat`, so finite; it may depend on "the command, its operands and the data". -/
opaque latency (draw : Nat) (contents : List Nat) : Nat

end Sys2Proof.Config
end

