-- ==== Sys2Proof/Machine/Codec.lean ====
section
/-! DEFINITION. The byte/word codec (spec 40_codec.md) and the rotates and shift of 00_scope.md R10. -/

namespace Sys2Proof.Machine

open Sys2Proof

/-- `shr(x, n)`: logical right shift, zeros shifted in (R10). -/
def shr (x : Word) (n : Nat) : Word := x >>> n

/-- `rotl(x, n) = ((x << n) | (x >> (32 − n))) mod 2^32`, 0 ≤ n < 32 (R10). -/
def rotl (x : Word) (n : Nat) : Word := (x <<< n) ||| (x >>> (32 - n))

/-- `rotr(x, n) = rotl(x, (32 − n) mod 32)` (R10). -/
def rotr (x : Word) (n : Nat) : Word := rotl x ((32 - n) % 32)

/-- `be32_decode(b)`: four bytes to one word, the first byte the most significant (R100). -/
def be32Decode (b0 b1 b2 b3 : Byte) : Word :=
  (b0.setWidth 32 <<< 24) ||| (b1.setWidth 32 <<< 16) ||| (b2.setWidth 32 <<< 8) ||| b3.setWidth 32

/-- Byte `j` of `be32_encode(w)`: `w[31 − 8j : 24 − 8j]` (R101). -/
def wordByte (w : Word) (j : Nat) : Byte := w.extractLsb' (24 - 8 * j) 8

/-- `be32_encode(w) = [w[31:24], w[23:16], w[15:8], w[7:0]]` (R101). -/
def be32Encode (w : Word) : List Byte := [wordByte w 0, wordByte w 1, wordByte w 2, wordByte w 3]

/-- `block_words(B)`: a byte string to its words, four bytes at a time (R102). -/
def blockWords : List Byte → List Word
  | b0 :: b1 :: b2 :: b3 :: rest => be32Decode b0 b1 b2 b3 :: blockWords rest
  | _ => []

/-- `be64_encode(v) = be32_encode(v[63:32]) || be32_encode(v[31:0])` (R103). -/
def be64Encode (v : BitVec 64) : List Byte := be32Encode (v.extractLsb' 32 32) ++ be32Encode (v.extractLsb' 0 32)

/-- `serialize(H, D)`: the first D bytes of the words of H, each big-endian; D is 20 or 32 (R104). -/
def serialize (h : Vector Word 8) (d : Nat) : List Byte := (h.toList.take (d / 4)).flatMap be32Encode

end Sys2Proof.Machine
end

