-- ==== Sys2Proof/Machine/State.lean ====
section
/-! DEFINITION. The state of the core (spec 10_state.md) with the host side of its register window, the reasons a step
can stop, and the state right after reset. Everything is plain data. -/

namespace Sys2Proof.Machine

open Sys2Proof

/-- The algorithm latched in ALGL (10_state.md R31): 0 = SHA-1, 1 = SHA-256. -/
inductive Alg where
  | sha1
  | sha256
  deriving DecidableEq, Repr

/-- PHASE (10_state.md R30): "the value 3 is never held", so it has no constructor. -/
inductive Phase where
  | fresh
  | accumulating
  | finalized
  deriving DecidableEq, Repr

/-- The error codes STATUS.ERR can hold (60_exceptions.md R240); the codes 7 .. 15 are "never produced". -/
inductive ErrCode where
  | none
  | illegalCommand
  | unsupportedAlgorithm
  | invalidArgument
  | keyLengthExceeded
  | sequence
  | lengthOverflow
  deriving DecidableEq, Repr

/-- What stands at an offset of the register window (20_memory.md R51). -/
inductive Reg where
  | id
  | cmd
  | status
  | countLo
  | countHi
  | block (i : Fin 16)
  | key (i : Fin 16)
  | digest (i : Fin 8)
  | reserved
  deriving DecidableEq, Repr

/-- What the outside world does to the core, one at a time in the order the bus delivers it (20_memory.md R63).
Offsets are from BASE (00_scope.md R7); `width` is the access width in bytes, 4 for `MemRead(off, 4)`. -/
inductive HostOp where
  /-- `RD off`: a read of `width` bytes (R11, R50). -/
  | read (off width : Nat)
  /-- `WR off, v`: a write of `width` bytes (R11, R50). -/
  | write (off width : Nat) (v : Word)
  /-- The host's `WAIT` loop: read STATUS until bit 0 is 0 (30_encoding.md R89). -/
  | wait
  /-- The level of the reset input changes (70_reset_and_hazards.md R270). -/
  | resetInput (asserted : Bool)
  deriving DecidableEq, Repr

/-- Why the machine stops. -/
inductive Fault where
  /-- A host access that breaks 20_memory.md R52 (width other than 32 bits, offset not a multiple of 4, offset ≥ 0x100):
  "the model records a host fault `BadAccess(off, width)`" (60_exceptions.md R247). Raised by the host's turn of `step`,
  never by a command. Safe: the spec itself stops the run there (93_implementation_defined.md S4). -/
  | badAccess (off width : Nat)
  deriving DecidableEq, Repr

/-- Why an instruction has no meaning. -/
inductive Refusal where
  /-- An instruction of the opcode table without a meaning. No arm of `exec` raises it: every command has its meaning.
  Safe: the machine would stop. -/
  | notModelled (mnemonic : String)
  deriving DecidableEq, Repr

/-- The state of one core and of what the host has in store for it. The working registers, the message schedule W and
the round counter t are not here: "none held outside a compression" (10_state.md R21 to R24, R43), and a step performs
a whole command (44_driver.md R201). ID and the constant tables are hardwired, not state (R37, R42). -/
structure State where
  /-- H, the Digest State register file (R20). -/
  h : Vector Word 8
  /-- BLK, the block buffer (R25). -/
  blk : Vector Byte 64
  /-- KEYBUF, the key buffer (R26). -/
  keyBuf : Vector Byte 64
  /-- KBLK, the Key Block latch, hidden from the host (R28). -/
  kblk : Vector Byte 64
  /-- PEND, the pending command (R27). -/
  pend : Word
  /-- COUNT, the message byte counter, "held in 61 bits" (R29). -/
  count : BitVec 61
  /-- PHASE, the digest driver's state machine (R30). -/
  phase : Phase
  /-- ALGL, the algorithm of the current computation (R31). -/
  algl : Alg
  /-- HMACM: the current computation was started by HMAC_INIT (R32). -/
  hmacm : Bool
  /-- ERR, the error code of the last completed command (R33). -/
  err : ErrCode
  /-- OVR, sticky: a write was dropped while BUSY = 1 (R34). -/
  ovr : Bool
  /-- BUSY: a command is accepted and not completed (R35). -/
  busy : Bool
  /-- The reset input is asserted (70_reset_and_hazards.md R270). -/
  rst : Bool
  /-- The parameter BASE, where this core's window sits (00_scope.md R7). The core's accesses are offsets from it, so no rule
  reads it; it is the one identifier a core has (60_exceptions.md R263), and the free values take it (log entry 21). -/
  base : Nat
  /-- The model's own: host turns left before the engine's step (LATENCY, R282, R283). -/
  slack : Nat
  /-- The model's own: the number of the next draw of a free value. -/
  draws : Nat
  /-- The host's accesses not yet performed, oldest first (20_memory.md R63). -/
  inbox : List HostOp
  /-- The word the last host turn's read returned; none where it returned no value. -/
  reply : Option Word
  deriving DecidableEq, Repr

/-- The machine right after reset (10_state.md R43, 70_reset_and_hazards.md R270), with nothing in the host's queue. -/
def State.reset : State where
  h := Vector.replicate 8 0
  blk := Vector.replicate 64 0
  keyBuf := Vector.replicate 64 0
  kblk := Vector.replicate 64 0
  pend := 0
  count := 0
  phase := .fresh
  algl := .sha1
  hmacm := false
  err := .none
  ovr := false
  busy := false
  rst := false
  base := 0
  slack := 0
  draws := 0
  inbox := []
  reply := Option.none

end Sys2Proof.Machine
end

