-- ==== Sys2Proof/Machine/Flags.lean ====
section
/-! DEFINITION. The core's status fields: "the core has no flags: 'flags' are the STATUS fields" (44_driver.md). The
codes of PHASE, ALGL and ERR, the STATUS word (10_state.md R38) and the check every command makes (60_exceptions.md R242). -/

namespace Sys2Proof.Machine

open Sys2Proof

/-- The encoding of PHASE, 2 bits (10_state.md R30). -/
def Phase.code : Phase → Nat
  | .fresh => 0
  | .accumulating => 1
  | .finalized => 2

/-- The encoding of ALGL, 1 bit (10_state.md R31). -/
def Alg.code : Alg → Nat
  | .sha1 => 0
  | .sha256 => 1

/-- The codes of STATUS.ERR, 4 bits (60_exceptions.md R240). -/
def ErrCode.code : ErrCode → Nat
  | .none => 0
  | .illegalCommand => 1
  | .unsupportedAlgorithm => 2
  | .invalidArgument => 3
  | .keyLengthExceeded => 4
  | .sequence => 5
  | .lengthOverflow => 6

/-- `STATUS = BUSY | OVR << 1 | ERR << 4 | PHASE << 8 | ALGL << 12 | HMACM << 13`; the reserved bits read 0 (10_state.md R38). -/
def statusWord (s : State) : Word :=
  BitVec.ofNat 32
    (s.busy.toNat + s.ovr.toNat * 2 ^ 1 + s.err.code * 2 ^ 4 + s.phase.code * 2 ^ 8 + s.algl.code * 2 ^ 12 +
      s.hmacm.toNat * 2 ^ 13)

/-- The check a command makes before changing any state; the first condition that holds gives the code (60_exceptions.md
R242, R244). -/
def check (op alg len : Nat) (s : State) : ErrCode :=
  if ¬(op = 0x1 ∨ op = 0x2 ∨ op = 0x3 ∨ op = 0x4) then .illegalCommand
  else if (op = 0x1 ∨ op = 0x4) ∧ alg ≥ 2 then .unsupportedAlgorithm
  else if op = 0x3 ∧ len > 63 then .invalidArgument
  else if op = 0x4 ∧ len > 64 then .keyLengthExceeded
  else if (op = 0x2 ∨ op = 0x3) ∧ s.phase ≠ .accumulating then .sequence
  else if op = 0x2 ∧ s.count.toNat + 64 ≥ 2 ^ 61 then .lengthOverflow
  else .none

end Sys2Proof.Machine
end

