-- ==== Sys2Proof/Machine/Operands.lean ====
section
/-! DEFINITION. The operands of the commands: the algorithm an ALG field names, the message tail, the key block, and the
words of the BLK and KEYBUF buffers as the host reads and writes them. -/

namespace Sys2Proof.Machine

open Sys2Proof

/-- The algorithm of an ALG field that has passed the check: 0 = SHA-1, 1 = SHA-256 (30_encoding.md R83; `if alg = 0 … else …`
in 44_driver.md R202). -/
def Alg.ofField (alg : Nat) : Alg := if alg = 0 then .sha1 else .sha256

/-- The digest length D in bytes: 20 for SHA-1, 32 for SHA-256 (40_codec.md R104). -/
def Alg.digestLen : Alg → Nat
  | .sha1 => 20
  | .sha256 => 32

/-- A byte string zero-filled on the right (or cut) to the 64 bytes of a buffer. -/
def zeroFill (bytes : List Byte) : Vector Byte 64 := Vector.ofFn fun j : Fin 64 => bytes.getD j.val 0

/-- The message block of BLOCK: BLK[0 .. 63] (44_driver.md R203). -/
def blockOperand (s : State) : List Byte := s.blk.toList

/-- The message tail of FINAL: BLK[0 .. n−1]; the bytes past n are not read (41_padding.md R124). -/
def tailOperand (n : Nat) (s : State) : List Byte := s.blk.toList.take n

/-- The key of HMAC_INIT: KEYBUF[0 .. k−1]; the bytes past k are not read (45_hmac.md R220). -/
def keyOperand (k : Nat) (s : State) : List Byte := s.keyBuf.toList.take k

/-- The word of register i of a buffer: `be32_decode(buf[4i .. 4i+3])` (20_memory.md R55). -/
def bufWord (buf : Vector Byte 64) (i : Fin 16) : Word :=
  be32Decode buf[4 * i.val] buf[4 * i.val + 1] buf[4 * i.val + 2] buf[4 * i.val + 3]

/-- `buf[4i .. 4i+3] <- be32_encode(v)`: "a write changes only its own four bytes" (20_memory.md R55). -/
def bufWrite (buf : Vector Byte 64) (i : Fin 16) (v : Word) : Vector Byte 64 :=
  (((buf.set (4 * i.val) (wordByte v 0)).set (4 * i.val + 1) (wordByte v 1)).set (4 * i.val + 2) (wordByte v 2)).set
    (4 * i.val + 3) (wordByte v 3)

end Sys2Proof.Machine
end

