-- ==== Sys2Proof/Machine/Padding.lean ====
section
/-! DEFINITION. The Merkle–Damgård padding and length encoder (spec 41_padding.md). -/

namespace Sys2Proof.Machine

open Sys2Proof

/-- The 8-byte length field: the bit length `8·L` of the whole message, big-endian (R121, R123). -/
def lengthField (L : Nat) : List Byte := be64Encode (BitVec.ofNat 64 (8 * L))

/-- `pad(T, L)`: the tail `T` of a message of `L` bytes as one 64-byte block (n ≤ 55) or two (56 ≤ n ≤ 63) (R121). -/
def pad (T : List Byte) (L : Nat) : List (List Byte) :=
  let n := T.length
  let P := T ++ [0x80]
  if 64 - (n + 1) ≥ 8 then
    [P ++ List.replicate (55 - n) 0 ++ lengthField L]
  else
    let P := P ++ List.replicate (63 - n) 0 ++ List.replicate 56 0 ++ lengthField L
    [P.take 64, P.drop 64]

end Sys2Proof.Machine
end

