-- ==== Sys2Proof/Machine/Sha1.lean ====
section
/-! DEFINITION. The SHA-1 compression engine (spec 42_sha1.md). -/

namespace Sys2Proof.Machine

open Sys2Proof

/-- The SHA-1 working registers a, b, c, d, e; they exist only during a compression (10_state.md R21). -/
structure Work1 where
  a : Word
  b : Word
  c : Word
  d : Word
  e : Word
  deriving DecidableEq, Repr

/-- H as INIT loads it for SHA-1: IV1[0..4], then three zero words (R140, R150). -/
def iv1 : Vector Word 8 := #v[0x67452301, 0xEFCDAB89, 0x98BADCFE, 0x10325476, 0xC3D2E1F0, 0, 0, 0]

/-- The four round constants K1[0..3], one per 20-round phase (R141). -/
def k1Table : List Word := [0x5A827999, 0x6ED9EBA1, 0x8F1BBCDC, 0xCA62C1D6]

/-- `K(t) = K1[t div 20]` (R141). -/
def k1 (t : Nat) : Word := k1Table.getD (t / 20) 0

/-- `Ch(b, c, d) = (b & c) | (~b & d)` (R143). -/
def ch1 (b c d : Word) : Word := (b &&& c) ||| (~~~b &&& d)

/-- `Parity(b, c, d) = b ^ c ^ d` (R144). -/
def parity1 (b c d : Word) : Word := b ^^^ c ^^^ d

/-- `Maj(b, c, d) = (b & c) | (b & d) | (c & d)` (R145). -/
def maj1 (b c d : Word) : Word := (b &&& c) ||| (b &&& d) ||| (c &&& d)

/-- `f(t, b, c, d)`, the phase-dependent mixing function (R142). -/
def f1 (t : Nat) (b c d : Word) : Word :=
  if t ≤ 19 then ch1 b c d
  else if t ≤ 39 then parity1 b c d
  else if t ≤ 59 then maj1 b c d
  else parity1 b c d

/-- W[t] from the words before it, `newest` holding W[t−1], W[t−2], … (R146). -/
def next1 (newest : List Word) : Word :=
  rotl (newest.getD 2 0 ^^^ newest.getD 7 0 ^^^ newest.getD 13 0 ^^^ newest.getD 15 0) 1

/-- Append `k` schedule words to the words so far, newest first (R146). -/
def extend1 : Nat → List Word → List Word
  | 0, newest => newest
  | k + 1, newest => extend1 k (next1 newest :: newest)

/-- `sched1(B)`, the message schedule W[0..79] of the block `B` (R146). -/
def sched1 (B : List Byte) : List Word := (extend1 64 (blockWords B).reverse).reverse

/-- One SHA-1 round with the schedule word `w` = W[t]; every right-hand side reads the old registers (R147). -/
def round1 (t : Nat) (w : Word) (r : Work1) : Work1 where
  a := rotl r.a 5 + f1 t r.b r.c r.d + r.e + k1 t + w
  b := r.a
  c := rotl r.b 30
  d := r.c
  e := r.d

/-- The rounds from `t` on, one per word of the schedule, in order (R148, R149). -/
def rounds1 : Nat → List Word → Work1 → Work1
  | _, [], r => r
  | t, w :: ws, r => rounds1 (t + 1) ws (round1 t w r)

/-- The working registers after the 80 rounds on the block `B` from H (R148). -/
def work1 (h : Vector Word 8) (B : List Byte) : Work1 :=
  rounds1 0 (sched1 B) { a := h[0], b := h[1], c := h[2], d := h[3], e := h[4] }

/-- `compress1(H, B)`: the registers are added into H[0..4]; H[5..7] stay (R148, R150). -/
def compress1 (h : Vector Word 8) (B : List Byte) : Vector Word 8 :=
  let r := work1 h B
  #v[h[0] + r.a, h[1] + r.b, h[2] + r.c, h[3] + r.d, h[4] + r.e, h[5], h[6], h[7]]

end Sys2Proof.Machine
end

