-- ==== Sys2Proof/Machine/Sha256.lean ====
section
/-! DEFINITION. The SHA-256 compression engine (spec 43_sha256.md). -/

namespace Sys2Proof.Machine

open Sys2Proof

/-- The SHA-256 working registers a … h; they exist only during a compression (10_state.md R22). -/
structure Work256 where
  a : Word
  b : Word
  c : Word
  d : Word
  e : Word
  f : Word
  g : Word
  h : Word
  deriving DecidableEq, Repr

/-- IV256[0..7] (R170). -/
def iv256 : Vector Word 8 :=
  #v[0x6A09E667, 0xBB67AE85, 0x3C6EF372, 0xA54FF53A, 0x510E527F, 0x9B05688C, 0x1F83D9AB, 0x5BE0CD19]

/-- The 64 round constants K256[0..63], the eight rows of R171. -/
def k256Table : List Word :=
  [0x428A2F98, 0x71374491, 0xB5C0FBCF, 0xE9B5DBA5, 0x3956C25B, 0x59F111F1, 0x923F82A4, 0xAB1C5ED5] ++
  [0xD807AA98, 0x12835B01, 0x243185BE, 0x550C7DC3, 0x72BE5D74, 0x80DEB1FE, 0x9BDC06A7, 0xC19BF174] ++
  [0xE49B69C1, 0xEFBE4786, 0x0FC19DC6, 0x240CA1CC, 0x2DE92C6F, 0x4A7484AA, 0x5CB0A9DC, 0x76F988DA] ++
  [0x983E5152, 0xA831C66D, 0xB00327C8, 0xBF597FC7, 0xC6E00BF3, 0xD5A79147, 0x06CA6351, 0x14292967] ++
  [0x27B70A85, 0x2E1B2138, 0x4D2C6DFC, 0x53380D13, 0x650A7354, 0x766A0ABB, 0x81C2C92E, 0x92722C85] ++
  [0xA2BFE8A1, 0xA81A664B, 0xC24B8B70, 0xC76C51A3, 0xD192E819, 0xD6990624, 0xF40E3585, 0x106AA070] ++
  [0x19A4C116, 0x1E376C08, 0x2748774C, 0x34B0BCB5, 0x391C0CB3, 0x4ED8AA4A, 0x5B9CCA4F, 0x682E6FF3] ++
  [0x748F82EE, 0x78A5636F, 0x84C87814, 0x8CC70208, 0x90BEFFFA, 0xA4506CEB, 0xBEF9A3F7, 0xC67178F2]

/-- `K256[t]` (R171). -/
def k256 (t : Nat) : Word := k256Table.getD t 0

/-- `Ch(x, y, z) = (x & y) ^ (~x & z)` (R172). -/
def ch256 (x y z : Word) : Word := (x &&& y) ^^^ (~~~x &&& z)

/-- `Maj(x, y, z) = (x & y) ^ (x & z) ^ (y & z)` (R173). -/
def maj256 (x y z : Word) : Word := (x &&& y) ^^^ (x &&& z) ^^^ (y &&& z)

/-- `Σ0(x) = rotr(x, 2) ^ rotr(x, 13) ^ rotr(x, 22)` (R174). -/
def bigSigma0 (x : Word) : Word := rotr x 2 ^^^ rotr x 13 ^^^ rotr x 22

/-- `Σ1(x) = rotr(x, 6) ^ rotr(x, 11) ^ rotr(x, 25)` (R175). -/
def bigSigma1 (x : Word) : Word := rotr x 6 ^^^ rotr x 11 ^^^ rotr x 25

/-- `σ0(x) = rotr(x, 7) ^ rotr(x, 18) ^ shr(x, 3)` (R176). -/
def smallSigma0 (x : Word) : Word := rotr x 7 ^^^ rotr x 18 ^^^ shr x 3

/-- `σ1(x) = rotr(x, 17) ^ rotr(x, 19) ^ shr(x, 10)` (R177). -/
def smallSigma1 (x : Word) : Word := rotr x 17 ^^^ rotr x 19 ^^^ shr x 10

/-- W[t] from the words before it, `newest` holding W[t−1], W[t−2], … (R178). -/
def next256 (newest : List Word) : Word :=
  smallSigma1 (newest.getD 1 0) + newest.getD 6 0 + smallSigma0 (newest.getD 14 0) + newest.getD 15 0

/-- Append `k` schedule words to the words so far, newest first (R178). -/
def extend256 : Nat → List Word → List Word
  | 0, newest => newest
  | k + 1, newest => extend256 k (next256 newest :: newest)

/-- `sched256(B)`, the message schedule W[0..63] of the block `B` (R178). -/
def sched256 (B : List Byte) : List Word := (extend256 48 (blockWords B).reverse).reverse

/-- One SHA-256 round with the schedule word `w` = W[t]; every right-hand side reads the old registers (R179). -/
def round256 (t : Nat) (w : Word) (r : Work256) : Work256 :=
  let t1 := r.h + bigSigma1 r.e + ch256 r.e r.f r.g + k256 t + w
  let t2 := bigSigma0 r.a + maj256 r.a r.b r.c
  { a := t1 + t2, b := r.a, c := r.b, d := r.c, e := r.d + t1, f := r.e, g := r.f, h := r.g }

/-- The rounds from `t` on, one per word of the schedule, in order (R180, R181). -/
def rounds256 : Nat → List Word → Work256 → Work256
  | _, [], r => r
  | t, w :: ws, r => rounds256 (t + 1) ws (round256 t w r)

/-- The working registers after the 64 rounds on the block `B` from H (R180). -/
def work256 (h : Vector Word 8) (B : List Byte) : Work256 :=
  rounds256 0 (sched256 B)
    { a := h[0], b := h[1], c := h[2], d := h[3], e := h[4], f := h[5], g := h[6], h := h[7] }

/-- `compress256(H, B)`: the registers are added into H[0..7] (R180). -/
def compress256 (h : Vector Word 8) (B : List Byte) : Vector Word 8 :=
  let r := work256 h B
  #v[h[0] + r.a, h[1] + r.b, h[2] + r.c, h[3] + r.d, h[4] + r.e, h[5] + r.f, h[6] + r.g, h[7] + r.h]

end Sys2Proof.Machine
end

