-- ==== Sys2Proof/Machine/Ops.lean ====
section
/-! DEFINITION. The operations the commands and the host accesses share: ending a command with and without an error,
accepting a command, the free contents of BLK, the compression function of an algorithm, and the register map. The core
has no trap: "an error saves no state, changes no mode and transfers control nowhere; it only writes ERR"
(60_exceptions.md R249), so `State.raise` is its one exception operation, and there is no return from it (R250). -/

namespace Sys2Proof.Machine

open Sys2Proof

/-- `raise Error(c)`: "writes `ERR <- c` and `BUSY <- 0` and nothing else" (60_exceptions.md R241). -/
def State.raise (s : State) (c : ErrCode) : State := { s with err := c, busy := false }

/-- A command completes without error: ERR is its outcome, 0, and BUSY falls (10_state.md R33, 44_driver.md R201). -/
def State.finish (s : State) : State := { s with err := .none, busy := false }

/-- End a command: with `code` if its check gave one, else with the state its effect makes (44_driver.md R201). -/
def complete (code : ErrCode) (effect s : State) : Host.Outcome State Fault Refusal :=
  match code with
  | .none => .next effect.finish
  | c => .next (s.raise c)

/-- Everything the core holds, as numbers: what a free value may depend on. The last is BASE, the core's identity, so that
two cores in equal states do not draw alike. That cores at ONE base (and two runs from states that agree here and in `draws`)
draw equal values is the model's choice, not the spec's, which puts a draw under no law (00_scope.md R11; log entry 21). -/
def State.contents (s : State) : List Nat :=
  s.h.toList.map BitVec.toNat ++ s.blk.toList.map BitVec.toNat ++ s.keyBuf.toList.map BitVec.toNat ++
    s.kblk.toList.map BitVec.toNat ++
    [s.pend.toNat, s.count.toNat, s.phase.code, s.algl.code, s.hmacm.toNat, s.err.code, s.ovr.toNat,
      s.base]

/-- The 64 free bytes of `BLK <- draw`: every byte of BLK becomes a free value (10_state.md R25, 44_driver.md R203). -/
def freeBlock (draw : Nat) (contents : List Nat) : Vector Byte 64 :=
  Vector.ofFn fun j : Fin 64 => Config.freeByte draw contents j.val

/-- The initial Digest State of an algorithm (42_sha1.md R140, R150; 43_sha256.md R170). -/
def ivOf : Alg → Vector Word 8
  | .sha1 => iv1
  | .sha256 => iv256

/-- `compress(H, B)`: compress1 when ALGL = 0, compress256 when ALGL = 1 (44_driver.md R210). -/
def compress : Alg → Vector Word 8 → List Byte → Vector Word 8
  | .sha1 => compress1
  | .sha256 => compress256

/-- Compress blocks strictly in sequence, "each block's output state is the next block's input state" (42_sha1.md R149). -/
def compressAll (alg : Alg) (h : Vector Word 8) (blocks : List (List Byte)) : Vector Word 8 :=
  blocks.foldl (compress alg) h

/-- The acceptance of a command word: `PEND <- v; ERR <- 0; BUSY <- 1` (44_driver.md R200). How many host turns pass before
the engine's step is the free value LATENCY (70_reset_and_hazards.md R282). -/
def State.accept (s : State) (v : Word) : State :=
  { s with
    pend := v
    err := .none
    busy := true
    slack := Config.latency s.draws { s with pend := v }.contents
    draws := s.draws + 1 }

/-- Place a command word as the pending command whose engine step is the next step. -/
def State.placeCommand (s : State) (v : Word) : State :=
  { s with pend := v, err := .none, busy := true, rst := false, slack := 0 }

/-- A write dropped while BUSY = 1: it only sets OVR (20_memory.md R56). -/
def State.dropWrite (s : State) : State := { s with ovr := true }

/-- A host turn passes: the queue is `rest`, the host has its answer, and a running command is one turn nearer its end. -/
def State.turn (s : State) (rest : List HostOp) (answer : Option Word) : State :=
  { s with inbox := rest, reply := answer, slack := s.slack - 1 }

/-- The reset input is deasserted: "every state element holds its reset value" (70_reset_and_hazards.md R270). The host's queue,
the draw counter and the parameter BASE are not state elements of the core and stay. -/
def State.leaveReset (s : State) (rest : List HostOp) : State :=
  { State.reset with base := s.base, inbox := rest, draws := s.draws }

/-- The engine has the next step: BUSY = 1, its time has come, and reset is not asserted (44_driver.md R201,
70_reset_and_hazards.md R270, R283). -/
def State.engineTurn (s : State) : Bool := s.busy && s.slack == 0 && !s.rst

/-- The accesses the core performs: 4 bytes wide, aligned, inside the window (20_memory.md R52). -/
def permitted (off width : Nat) : Bool := width == 4 && off % 4 == 0 && off < 0x100

/-- The register map (20_memory.md R51), for a permitted offset. -/
def regAt (off : Nat) : Reg :=
  if off = 0x00 then .id
  else if off = 0x04 then .cmd
  else if off = 0x08 then .status
  else if off = 0x10 then .countLo
  else if off = 0x14 then .countHi
  else if 0x40 ≤ off ∧ off < 0x80 then .block (Fin.ofNat 16 ((off - 0x40) / 4))
  else if 0x80 ≤ off ∧ off < 0xC0 then .key (Fin.ofNat 16 ((off - 0x80) / 4))
  else if 0xC0 ≤ off ∧ off < 0xE0 then .digest (Fin.ofNat 8 ((off - 0xC0) / 4))
  else .reserved

end Sys2Proof.Machine
end

