-- ==== Sys2Proof/Machine/Hmac.lean ====
section
/-! DEFINITION. HMAC key padding and double-digest orchestration: HMAC_INIT and the outer digest FINAL runs (spec 45_hmac.md). -/

namespace Sys2Proof.Machine

open Sys2Proof

/-- The bytewise XOR of a byte string with a repeated byte, `X ^ 0x36^64` (R220). -/
def xorBytes (bytes : List Byte) (c : Byte) : List Byte := bytes.map (· ^^^ c)

/-- `ipad = KBLK ^ 0x36^64` (R223). -/
def ipad (kblk : Vector Byte 64) : List Byte := xorBytes kblk.toList 0x36

/-- `opad = KBLK ^ 0x5C^64` (R224). -/
def opad (kblk : Vector Byte 64) : List Byte := xorBytes kblk.toList 0x5C

/-- The Key Block: the k key bytes in order, followed by 64 − k zero bytes (R221). -/
def keyBlock (key : List Byte) : Vector Byte 64 := zeroFill key

/-- HMAC_OUTER: H becomes the digest of `opad || inner`, `inner` the serialised inner digest (R225). -/
def hmacOuter (alg : Alg) (kblk : Vector Byte 64) (h : Vector Word 8) : Vector Word 8 :=
  let inner := serialize h alg.digestLen
  compressAll alg (compress alg (ivOf alg) (opad kblk)) (pad inner (64 + alg.digestLen))

/-- The effect of HMAC_INIT that has passed its check (R220). -/
def hmacInitEffect (alg : Alg) (k : Nat) (s : State) : State :=
  let kblk := keyBlock (keyOperand k s)
  { s with
    kblk := kblk
    algl := alg
    h := compress alg (ivOf alg) (ipad kblk)
    count := 64
    hmacm := true
    phase := .accumulating
    blk := freeBlock s.draws s.contents
    draws := s.draws + 1 }

/-- HMAC_INIT alg, k (R220). -/
def execHmacInit (alg len : Nat) (s : State) : Host.Outcome State Fault Refusal :=
  complete (check 0x4 alg len s) (hmacInitEffect (Alg.ofField alg) len s) s

end Sys2Proof.Machine
end

