-- ==== Sys2Proof/Machine/Driver.lean ====
section
/-! DEFINITION. The digest driver commands INIT, BLOCK and FINAL (spec 44_driver.md). -/

namespace Sys2Proof.Machine

open Sys2Proof

/-- The effect of INIT that has passed its check (R202). -/
def initEffect (alg : Alg) (s : State) : State :=
  { s with algl := alg, h := ivOf alg, count := 0, hmacm := false, phase := .accumulating }

/-- INIT alg (R202). -/
def execInit (alg : Nat) (s : State) : Host.Outcome State Fault Refusal :=
  complete (check 0x1 alg 0 s) (initEffect (Alg.ofField alg) s) s

/-- The effect of BLOCK that has passed its check (R203). -/
def blockEffect (s : State) : State :=
  { s with
    h := compress s.algl s.h (blockOperand s)
    count := s.count + 64
    blk := freeBlock s.draws s.contents
    draws := s.draws + 1 }

/-- BLOCK (R203). -/
def execBlock (s : State) : Host.Outcome State Fault Refusal :=
  complete (check 0x2 0 0 s) (blockEffect s) s

/-- The length L of the digest input that FINAL n closes: `COUNT + n` (R204). -/
def finalLength (n : Nat) (s : State) : Nat := s.count.toNat + n

/-- H after the one or two padded blocks of the tail (R204). -/
def finalInner (n : Nat) (s : State) : Vector Word 8 :=
  compressAll s.algl s.h (pad (tailOperand n s) (finalLength n s))

/-- H after FINAL: the digest, or with HMACM = 1 the MAC (R204, 45_hmac.md R225). -/
def finalDigest (n : Nat) (s : State) : Vector Word 8 :=
  if s.hmacm then hmacOuter s.algl s.kblk (finalInner n s) else finalInner n s

/-- The effect of FINAL that has passed its check (R204). -/
def finalEffect (n : Nat) (s : State) : State :=
  { s with
    h := finalDigest n s
    count := BitVec.ofNat 61 (finalLength n s)
    phase := .finalized
    blk := freeBlock s.draws s.contents
    draws := s.draws + 1 }

/-- FINAL n (R204). -/
def execFinal (len : Nat) (s : State) : Host.Outcome State Fault Refusal :=
  complete (check 0x3 0 len s) (finalEffect len s) s

end Sys2Proof.Machine
end

