-- ==== Sys2Proof/Machine/Dispatch.lean ====
section
/-! DEFINITION. One arm per command (44_driver.md R201). -/

namespace Sys2Proof.Machine

open Sys2Proof

def exec (i : Instr) (s : State) : Host.Outcome State Fault Refusal :=
  match i with
  | .init alg => Sys2Proof.Machine.execInit alg s
  | .block => Sys2Proof.Machine.execBlock s
  | .final len => Sys2Proof.Machine.execFinal len s
  | .hmacInit alg len => Sys2Proof.Machine.execHmacInit alg len s

end Sys2Proof.Machine
end

