-- ==== Sys2Proof/Machine/Engine.lean ====
section
/-! DEFINITION. The engine's step on the pending command (spec 44_driver.md R201). -/

namespace Sys2Proof.Machine

open Sys2Proof

/-- The engine performs the whole pending command and ends it (R201); a reserved opcode ends in ILLEGAL_COMMAND "with no other
change" (30_encoding.md R86, 60_exceptions.md R242). -/
def engineStep (s : State) : Host.Outcome State Fault Refusal :=
  match decode s.pend with
  | .ok i => exec i s
  | .error (.illegalOpcode _) => .next (s.raise .illegalCommand)

end Sys2Proof.Machine
end

