-- ==== Sys2Proof/Machine/Window.lean ====
section
/-! DEFINITION. The register window as the host sees it (spec 20_memory.md, 10_state.md section 6), and the host's turn of a step. -/

namespace Sys2Proof.Machine

open Sys2Proof

/-- ID "always reads 0x53484131" (10_state.md R37). -/
def idWord : Word := 0x53484131

/-- The value of a register while BUSY = 0 (10_state.md R37 to R41; 20_memory.md R53, R55). -/
def readReg (s : State) : Reg → Word
  | .id => idWord
  | .cmd => 0
  | .status => statusWord s
  | .countLo => (s.count.setWidth 64).extractLsb' 0 32
  | .countHi => (s.count.setWidth 64).extractLsb' 32 32
  | .block i => bufWord s.blk i
  | .key i => bufWord s.keyBuf i
  | .digest i => s.h[i.val]
  | .reserved => 0

/-- The registers whose reads are exact at every time: ID, STATUS and the reserved offsets (20_memory.md R53, R56). -/
def Reg.exactWhileBusy : Reg → Bool
  | .id => true
  | .status => true
  | .reserved => true
  | _ => false

/-- A host read of a register: its value and the state after. Reading "changes no state" (20_memory.md R60) of the core; an
unspecified word (R56) takes one draw of the model's free values. -/
def hostRead (s : State) (r : Reg) : Word × State :=
  if s.busy && !r.exactWhileBusy then (Config.freeWord s.draws s.contents, { s with draws := s.draws + 1 })
  else (readReg s r, s)

/-- A host write of `v` to a register (20_memory.md R53 to R56; 10_state.md R38; 44_driver.md R200). -/
def hostWrite (s : State) (r : Reg) (v : Word) : State :=
  match r with
  | .cmd => if s.busy then s.dropWrite else s.accept v
  | .block i => if s.busy then s.dropWrite else { s with blk := bufWrite s.blk i v }
  | .key i => if s.busy then s.dropWrite else { s with keyBuf := bufWrite s.keyBuf i v }
  | .status => if v.getLsbD 1 then { s with ovr := false } else s
  | .id => s
  | .countLo => s
  | .countHi => s
  | .digest _ => s
  | .reserved => s

/-- The host performs `RD off` (20_memory.md R52, R63; refused accesses: 60_exceptions.md R247). -/
def performRead (s : State) (rest : List HostOp) (off width : Nat) : Host.Outcome State Fault Refusal :=
  if permitted off width then .next ((hostRead s (regAt off)).2.turn rest (some (hostRead s (regAt off)).1))
  else .fault (.badAccess off width)

/-- The host performs `WR off, v`. An accepted command starts its own LATENCY, so the turn is counted before the write. -/
def performWrite (s : State) (rest : List HostOp) (off width : Nat) (v : Word) : Host.Outcome State Fault Refusal :=
  if permitted off width then .next (hostWrite (s.turn rest none) (regAt off) v)
  else .fault (.badAccess off width)

/-- One round of the `WAIT` loop: read STATUS; "if bit 0 of the value is 1, go to loop" (30_encoding.md R89). -/
def performWait (s : State) (rest : List HostOp) : State :=
  if s.busy then s.turn (.wait :: rest) (some (statusWord s)) else s.turn rest (some (statusWord s))

/-- The host's turn: the oldest operation of its queue is performed. With an empty queue the core is idle, or a running command
comes one turn nearer (60_exceptions.md R255). While reset is asserted "no host access is performed" (70_reset_and_hazards.md R270). -/
def hostTurn (s : State) : Host.Outcome State Fault Refusal :=
  match s.inbox with
  | [] => .next (s.turn [] none)
  | .resetInput true :: rest => .next { s.turn rest none with rst := true }
  | .resetInput false :: rest => .next (if s.rst then s.leaveReset rest else s.turn rest none)
  | .read off width :: rest => if s.rst then .next (s.turn rest none) else performRead s rest off width
  | .write off width v :: rest => if s.rst then .next (s.turn rest none) else performWrite s rest off width v
  | .wait :: rest => if s.rst then .next (s.turn rest none) else .next (performWait s rest)

end Sys2Proof.Machine
end

