-- ==== Sys2Proof/Machine/Step.lean ====
section
/-! DEFINITION. One step of the machine: the engine's, when a command is due, else the host's (spec 10_state.md R44). -/

namespace Sys2Proof.Machine

open Sys2Proof

/-- Two agents take steps (R44): the engine performs the pending command when its turn has come, and otherwise the host's oldest
access is performed. An access is "performed wholly before or wholly after" a command (44_driver.md R201). -/
def step (s : State) : Host.Outcome State Fault Refusal :=
  if s.engineTurn then engineStep s else hostTurn s

/-- `s` with the instruction whose bits are `w` as its pending command, the engine's step being next. -/
def State.withFetchWord (s : State) (nbits w : Nat) : State :=
  s.placeCommand (BitVec.ofNat 32 (w % 2 ^ nbits))

end Sys2Proof.Machine
end

