-- ==== Sys2Proof/Machine/Message.lean ====
section
/-! DEFINITION. The functions of whole messages the core realises: the source's `computeDigest` and `computeHmac` (44_driver.md
R207, 45_hmac.md R227), and the command sequences of those two rules as functions of the state. -/

namespace Sys2Proof.Machine

open Sys2Proof

/-- `padded(m) = m || 0x80 || 0x00^z || be64_encode(8·L)` with `z = (55 − L) mod 64` (41_padding.md R125). -/
def padded (m : List Byte) : List Byte :=
  m ++ [0x80] ++ List.replicate ((55 - (m.length : Int)) % 64).toNat 0 ++ lengthField m.length

/-- The first `q` 64-byte blocks of a byte string. -/
def blocks : Nat → List Byte → List (List Byte)
  | 0, _ => []
  | q + 1, m => m.take 64 :: blocks q (m.drop 64)

/-- `digest(m)`: the blocks of `padded(m)` compressed in order from the initial state, then serialised (44_driver.md R207). -/
def digest (alg : Alg) (m : List Byte) : List Byte :=
  serialize (compressAll alg (ivOf alg) (blocks ((padded m).length / 64) (padded m))) alg.digestLen

/-- `digest(opad || digest(ipad || m))` for a key of at most 64 bytes (45_hmac.md R227). -/
def hmac (alg : Alg) (key m : List Byte) : List Byte :=
  digest alg (opad (keyBlock key) ++ digest alg (ipad (keyBlock key) ++ m))

/-- Go on with `f` where a step gave a next state. -/
def andThen (o : Host.Outcome State Fault Refusal) (f : State → Host.Outcome State Fault Refusal) :
    Host.Outcome State Fault Refusal :=
  match o with
  | .next s => f s
  | .fault r => .fault r
  | .refused r => .refused r

/-- The state elements once command `i` has been written to CMD and accepted (44_driver.md R200). -/
def issue (i : Instr) (s : State) : State := { s with pend := encode i, err := .none, busy := true }

/-- The host issues command `i` and waits for it: it is accepted (44_driver.md R200) and the engine performs it (R201). -/
def perform (i : Instr) (s : State) : Host.Outcome State Fault Refusal := exec i (issue i s)

/-- `LOADBLK p`: BLK holds `p`, zero-filled (30_encoding.md R89). -/
def loadBlk (p : List Byte) (s : State) : State := { s with blk := zeroFill p }

/-- `LOADKEY p`: KEYBUF holds `p`, zero-filled (30_encoding.md R89). -/
def loadKey (p : List Byte) (s : State) : State := { s with keyBuf := zeroFill p }

/-- `LOADBLK b; BLOCK; WAIT` for each block, in order (44_driver.md R207). -/
def absorb : List (List Byte) → State → Host.Outcome State Fault Refusal
  | [], s => .next s
  | b :: bs, s => andThen (perform .block (loadBlk b s)) (absorb bs)

/-- The full blocks of a message, then its tail: `LOADBLK m[64q .. L−1]; FINAL n; WAIT` (44_driver.md R207). -/
def feed (m : List Byte) (s : State) : Host.Outcome State Fault Refusal :=
  andThen (absorb (blocks (m.length / 64) m) s) fun t =>
    perform (.final (m.length % 64)) (loadBlk (m.drop (64 * (m.length / 64))) t)

/-- The command sequence of 44_driver.md R207: `INIT alg; WAIT`, then the message. -/
def hashMessage (alg : Alg) (m : List Byte) (s : State) : Host.Outcome State Fault Refusal :=
  andThen (perform (.init alg.code) s) (feed m)

/-- The command sequence of 45_hmac.md R227: `LOADKEY K; HMAC_INIT alg, k; WAIT`, then the message. -/
def macMessage (alg : Alg) (key m : List Byte) (s : State) : Host.Outcome State Fault Refusal :=
  andThen (perform (.hmacInit alg.code key.length) (loadKey key s)) (feed m)

end Sys2Proof.Machine
end

