-- ==== Sys2Proof/Machine/Asm.lean ====
section
/-! DEFINITION. The host statements and pseudo-instructions of 30_encoding.md R88 and R89 as operations of the host's queue. -/

namespace Sys2Proof.Machine

open Sys2Proof

/-- `RD off` (R88). -/
def asmRd (off : Nat) : HostOp := .read off 4

/-- `WR off, v` (R88). -/
def asmWr (off : Nat) (v : Word) : HostOp := .write off 4 v

/-- `INIT alg`, `BLOCK`, `FINAL n` and `HMAC_INIT alg, k`: a write of the command's word to CMD (R88). -/
def asmCommand (i : Instr) : HostOp := asmWr 0x04 (encode i)

/-- The 16 writes that put a byte string, zero-filled on the right to 64 bytes, into a buffer's registers at `base` (R89). -/
def asmLoad (base : Nat) (p : List Byte) : List HostOp :=
  List.ofFn fun i : Fin 16 => asmWr (base + 4 * i.val) (bufWord (zeroFill p) i)

/-- `LOADBLK p` (R89). -/
def asmLoadBlk (p : List Byte) : List HostOp := asmLoad 0x40 p

/-- `LOADKEY p` (R89). -/
def asmLoadKey (p : List Byte) : List HostOp := asmLoad 0x80 p

/-- `CLROVR` (R89). -/
def asmClrOvr : HostOp := asmWr 0x08 0x00000002

/-- `READDIGEST alg`: `RD DIGEST[i]` for i = 0 .. 4 (SHA-1) or 0 .. 7 (SHA-256) (R89). -/
def asmReadDigest (alg : Alg) : List HostOp := (List.range (alg.digestLen / 4)).map fun i => asmRd (0xC0 + 4 * i)

/-- The part of the host sequence that feeds a message (44_driver.md R207): `LOADBLK; BLOCK; WAIT` for each full block, then
`LOADBLK; FINAL n; WAIT` for the tail. -/
def asmFeed (m : List Byte) : List HostOp :=
  (blocks (m.length / 64) m).flatMap (fun b => asmLoadBlk b ++ [asmCommand .block, .wait]) ++
    (asmLoadBlk (m.drop (64 * (m.length / 64))) ++ [asmCommand (.final (m.length % 64)), .wait])

/-- The host sequence of 44_driver.md R207, up to its READDIGEST. -/
def asmHash (alg : Alg) (m : List Byte) : List HostOp := [asmCommand (.init alg.code), .wait] ++ asmFeed m

/-- The host sequence of 45_hmac.md R227, up to its READDIGEST. -/
def asmMac (alg : Alg) (key m : List Byte) : List HostOp :=
  asmLoadKey key ++ ([asmCommand (.hmacInit alg.code key.length), .wait] ++ asmFeed m)

end Sys2Proof.Machine
end

