-- ==== Sys2Proof/Machine/Platform.lean ====
section
/-! DEFINITION. A platform of N_INSTANCES cores, each with its own window at its own BASE and its own copy of every state element
(spec 00_scope.md R7; 60_exceptions.md R263; 20_memory.md R61). -/

namespace Sys2Proof.Machine

open Sys2Proof

/-- The cores of a platform, each with its BASE in its State; N_INSTANCES is the list's length. -/
abbrev Platform := List State

/-- A platform right after reset, with a core at each of the addresses `bases`. -/
def Platform.reset (bases : List Nat) : Platform := bases.map fun base => { State.reset with base := base }

/-- An access on the platform's bus, at a bus address. -/
inductive BusOp where
  | read (addr width : Nat)
  | write (addr width : Nat) (v : Word)
  deriving DecidableEq, Repr

/-- The bus address of an access. -/
def BusOp.addr : BusOp → Nat
  | .read addr _ => addr
  | .write addr _ _ => addr

/-- The access as the core at `base` sees it: "every rule uses offsets from BASE" (R7). -/
def BusOp.toHostOp (base : Nat) : BusOp → HostOp
  | .read addr width => .read (addr - base) width
  | .write addr width v => .write (addr - base) width v

/-- The 256-byte window at BASE (20_memory.md R50). -/
def State.holds (s : State) (addr : Nat) : Bool := s.base ≤ addr && addr < s.base + 0x100

/-- The bus delivers an access to the core whose window holds its address, after the accesses delivered before (20_memory.md
R63); an address in no window belongs to no core. -/
def Platform.deliver (op : BusOp) : Platform → Platform
  | [] => []
  | s :: cores =>
    if s.holds op.addr then { s with inbox := s.inbox ++ [op.toHostOp s.base] } :: cores
    else s :: Platform.deliver op cores

/-- Core number `k` takes a step; the others are not touched (60_exceptions.md R263). What it draws depends on its own BASE and
contents only; that cores placed at one BASE would draw alike is the model's choice (log entry 21). -/
def Platform.stepAt (k : Nat) (p : Platform) : Host.Outcome Platform Fault Refusal :=
  match p[k]? with
  | none => .next p
  | some s =>
    match step s with
    | .next t => .next (p.set k t)
    | .fault r => .fault r
    | .refused r => .refused r

end Sys2Proof.Machine
end

