-- ==== Sys2Proof/Safety.lean ====
section
/-! DEFINITION. What the statements mean by a sound state and by a host that makes only the accesses the core performs. -/

namespace Sys2Proof.Machine

open Sys2Proof

/-- What holds in every state a run from reset reaches: the relations the spec states or derives between the state elements. -/
structure State.Inv (s : State) : Prop where
  /-- An accepted command has cleared ERR (44_driver.md R200). -/
  busyNoError : s.busy = true → s.err = .none
  /-- "COUNT is a multiple of 64 below 2^61 whenever PHASE = ACCUMULATING" (60_exceptions.md R242). -/
  countAligned : s.phase = .accumulating → 64 ∣ s.count.toNat
  /-- In FRESH no computation has started since reset: what only commands write has its reset value (10_state.md R30, 44_driver.md R205). -/
  freshIsReset : s.phase = .fresh →
    s.h = State.reset.h ∧ s.kblk = State.reset.kblk ∧ s.count = 0 ∧ s.algl = .sha1 ∧ s.hmacm = false
  /-- Under SHA-1 the words H[5..7] are 0 (10_state.md R20, 42_sha1.md R150). -/
  sha1UpperZero : s.algl = .sha1 → s.h[5] = 0 ∧ s.h[6] = 0 ∧ s.h[7] = 0
  /-- An HMAC computation has counted its ipad block (10_state.md R29). -/
  hmacCounted : s.hmacm = true → 64 ≤ s.count.toNat
  /-- The model's own: no engine step is awaited while BUSY = 0. -/
  idleNoSlack : s.busy = false → s.slack = 0

/-- The operation is a host access the core performs, or the WAIT loop (20_memory.md R52); not a change of the reset input. -/
def HostOp.accepted : HostOp → Bool
  | .read off width => permitted off width
  | .write off width _ => permitted off width
  | .wait => true
  | .resetInput _ => false

/-- Everything the host has in store is an access the core performs: such a run meets no fault until more is queued. -/
def State.hostWellBehaved (s : State) : Bool := s.inbox.all HostOp.accepted

/-- The spec's state elements of two states agree (10_state.md R43): every field but the reset input, the host's queue and answer,
and the model's own `slack` and `draws`. -/
structure State.SameCore (s t : State) : Prop where
  h : t.h = s.h
  blk : t.blk = s.blk
  keyBuf : t.keyBuf = s.keyBuf
  kblk : t.kblk = s.kblk
  pend : t.pend = s.pend
  count : t.count = s.count
  phase : t.phase = s.phase
  algl : t.algl = s.algl
  hmacm : t.hmacm = s.hmacm
  err : t.err = s.err
  ovr : t.ovr = s.ovr
  busy : t.busy = s.busy

/-- The host has the next step, and the reset input is not asserted: its oldest access is performed (10_state.md R44). -/
def State.HostTurn (s : State) : Prop := s.engineTurn = false ∧ s.rst = false

/-- `k` steps of the machine, stopping at the first stop. -/
def run (k : Nat) (s : State) : Host.Outcome State Fault Refusal := Host.Core.run core k s

/-- Whatever else the host has in store, its read `RD off` in `s` completes, returns `v`, and changes no state element. -/
def State.Reads (s : State) (off : Nat) (v : Word) : Prop :=
  ∀ rest, ∃ t, step { s with inbox := .read off 4 :: rest } = .next t ∧ t.reply = some v ∧ t.inbox = rest ∧ s.SameCore t

/-- Whatever else the host has in store, its write `WR off, v` in `s` completes and leaves the state elements of `s'`. -/
def State.Writes (s : State) (off : Nat) (v : Word) (s' : State) : Prop :=
  ∀ rest, ∃ t, step { s with inbox := .write off 4 v :: rest } = .next t ∧ t.inbox = rest ∧ s'.SameCore t

end Sys2Proof.Machine
end

