-- ==== Sys2Proof/Certificates/Slice0/Obligations.lean ====
section
/-! DEFINITION. The statements for the provers, by the spec file whose rules they state. -/

open Sys2Proof Sys2Proof.Machine

/-! ### 30_encoding.md: command words -/

/-- R90: the worked encodings, read and written. -/
def Obligations.WorkedEncodingsDecode : Prop :=
  (decode 0x00000001 = .ok (.init 0) ∧ encode (.init 0) = 0x00000001) ∧
  (decode 0x00000011 = .ok (.init 1) ∧ encode (.init 1) = 0x00000011) ∧
  (decode 0x00000002 = .ok .block ∧ encode .block = 0x00000002) ∧
  (decode 0x00000303 = .ok (.final 3) ∧ encode (.final 3) = 0x00000303) ∧
  (decode 0x00000003 = .ok (.final 0) ∧ encode (.final 0) = 0x00000003) ∧
  (decode 0x00002B03 = .ok (.final 43) ∧ encode (.final 43) = 0x00002B03) ∧
  (decode 0x00001414 = .ok (.hmacInit 1 20) ∧ encode (.hmacInit 1 20) = 0x00001414) ∧
  (decode 0x00004004 = .ok (.hmacInit 0 64) ∧ encode (.hmacInit 0 64) = 0x00004004)

/-- Decode and encode agree: every command a word can express, with every operand at every value its field admits. -/
def Obligations.DecodeOfEncodeIsTheCommand : Prop :=
  ∀ i : Instr, WellFormed i → decode (encode i) = .ok i

/-- The other direction: what the decoder reads is well-formed, and its word is the word read with the ignored bits 0. -/
def Obligations.EncodeOfDecodeClearsIgnoredBits : Prop :=
  ∀ (w : Word) (i : Instr), decode w = .ok i → WellFormed i ∧ encode i = w &&& i.readBits

/-- R85: bits 7:6 and 31:15 are ignored by every opcode, ALG by BLOCK and FINAL, LEN by INIT and BLOCK. -/
def Obligations.IgnoredBitsDoNotChangeTheCommand : Prop :=
  (∀ w v : Word, v &&& 0x00007F3F = w &&& 0x00007F3F → decode v = decode w) ∧
  (∀ (w v : Word) (alg : Nat), decode w = .ok (.init alg) → v &&& 0x0000003F = w &&& 0x0000003F → decode v = decode w) ∧
  (∀ w v : Word, decode w = .ok .block → v &&& 0x0000000F = w &&& 0x0000000F → decode v = decode w) ∧
  (∀ (w v : Word) (n : Nat), decode w = .ok (.final n) → v &&& 0x00007F0F = w &&& 0x00007F0F → decode v = decode w)

/-- R86: a reserved opcode is accepted (BUSY is set) and then ends in ILLEGAL_COMMAND with no other change. -/
def Obligations.ReservedOpcodeEndsInIllegalCommand : Prop :=
  (∀ (s : State) (v : Word), s.HostTurn → s.busy = false → opField v = 0 ∨ 5 ≤ opField v →
    s.Writes 0x04 v { s with pend := v, err := .none, busy := true }) ∧
  (∀ s : State, s.engineTurn = true → opField s.pend = 0 ∨ 5 ≤ opField s.pend →
    step s = .next { s with err := .illegalCommand, busy := false })

/-! ### 44_driver.md: the command lifecycle and INIT, BLOCK, FINAL -/

/-- R201: when the engine's turn has come, a step is `exec` of the command PEND decodes to; nothing is added around it. The
second clause says the same of the word of any well-formed command placed as the pending one. -/
def Obligations.StepRunsThePendingCommand : Prop :=
  (∀ (s : State) (i : Instr), s.engineTurn = true → decode s.pend = .ok i → step s = exec i s) ∧
  (∀ (s : State) (i : Instr), WellFormed i →
    step (s.placeCommand (encode i)) = exec i (s.placeCommand (encode i)))

/-- R200: a CMD write while BUSY = 0 sets PEND, clears ERR and sets BUSY; while BUSY = 1 it is dropped and sets OVR. Nothing
else changes. -/
def Obligations.CommandWriteIsAcceptedOrDropped : Prop :=
  ∀ (s : State) (v : Word), s.HostTurn →
    (s.busy = false → s.Writes 0x04 v { s with pend := v, err := .none, busy := true }) ∧
    (s.busy = true → s.Writes 0x04 v { s with ovr := true })

/-- R202 with R140 and R170: INIT. -/
def Obligations.InitStartsAComputation : Prop :=
  ∀ (alg : Nat) (s : State),
    (alg = 0 → exec (.init alg) s = .next
      { s with
        algl := .sha1
        h := #v[0x67452301, 0xEFCDAB89, 0x98BADCFE, 0x10325476, 0xC3D2E1F0, 0, 0, 0]
        count := 0, hmacm := false, phase := .accumulating, err := .none, busy := false }) ∧
    (alg = 1 → exec (.init alg) s = .next
      { s with
        algl := .sha256
        h := #v[0x6A09E667, 0xBB67AE85, 0x3C6EF372, 0xA54FF53A, 0x510E527F, 0x9B05688C, 0x1F83D9AB, 0x5BE0CD19]
        count := 0, hmacm := false, phase := .accumulating, err := .none, busy := false }) ∧
    (2 ≤ alg → exec (.init alg) s = .next { s with err := .unsupportedAlgorithm, busy := false })

/-- R203: BLOCK. `b` is BLK afterwards, "unspecified (a draw)": nothing more is said of it. `d` is the model's own draw counter
(log entry 2). -/
def Obligations.BlockCompressesTheBuffer : Prop :=
  ∀ s : State,
    (s.phase = .accumulating → s.count.toNat + 64 < 2 ^ 61 → ∃ (b : Vector Byte 64) (d : Nat), exec .block s = .next
      { s with
        h := match s.algl with
          | .sha1 => compress1 s.h s.blk.toList
          | .sha256 => compress256 s.h s.blk.toList
        count := s.count + 64
        blk := b, draws := d, err := .none, busy := false }) ∧
    (s.phase = .accumulating → 2 ^ 61 ≤ s.count.toNat + 64 →
      exec .block s = .next { s with err := .lengthOverflow, busy := false }) ∧
    (s.phase ≠ .accumulating → exec .block s = .next { s with err := .sequence, busy := false })

/-- R204: FINAL. `inner` is H after the padded blocks of the tail BLK[0 .. n−1], in order, with the length COUNT + n. `b` is BLK
afterwards, "unspecified"; `d` is the model's own draw counter (log entry 2). -/
def Obligations.FinalClosesTheComputation : Prop :=
  ∀ (n : Nat) (s : State),
    (n ≤ 63 → s.phase = .accumulating → ∃ (b : Vector Byte 64) (d : Nat), exec (.final n) s = .next
      { s with
        h :=
          let inner := (pad (s.blk.toList.take n) (s.count.toNat + n)).foldl (compress s.algl) s.h
          if s.hmacm then hmacOuter s.algl s.kblk inner else inner
        count := BitVec.ofNat 61 (s.count.toNat + n)
        phase := .finalized, blk := b, draws := d, err := .none, busy := false }) ∧
    (63 < n → exec (.final n) s = .next { s with err := .invalidArgument, busy := false }) ∧
    (n ≤ 63 → s.phase ≠ .accumulating → exec (.final n) s = .next { s with err := .sequence, busy := false })

/-- R206: the phase transitions of commands that end without error, the phases BLOCK and FINAL end without error in, and that
an erroring command leaves PHASE as it was. Reset puts PHASE in FRESH. -/
def Obligations.PhaseTransitionTable : Prop :=
  State.reset.phase = .fresh ∧
  ∀ (i : Instr) (s t : State), exec i s = .next t →
    (t.err ≠ .none → t.phase = s.phase) ∧
    (t.err = .none →
      match i with
      | .init _ => t.phase = .accumulating
      | .hmacInit _ _ => t.phase = .accumulating
      | .block => s.phase = .accumulating ∧ t.phase = .accumulating
      | .final _ => s.phase = .accumulating ∧ t.phase = .finalized) ∧
    (s.phase ≠ .accumulating → i = .block → t.err = .sequence) ∧
    (s.phase ≠ .accumulating → ∀ n, n ≤ 63 → i = .final n → t.err = .sequence)

/-- R208: in FINALIZED the digest stays as produced until the next INIT, HMAC_INIT or reset, whatever step is taken.
That it stays also while reset is asserted, until the release, is the model's choice (log entry 16). -/
def Obligations.FinalizedDigestStays : Prop :=
  ∀ s t : State, step s = .next t → s.phase = .finalized →
    (t.h = s.h ∧ t.phase = s.phase ∧ t.algl = s.algl ∧ t.hmacm = s.hmacm ∧ t.count = s.count) ∨
    (s.engineTurn = true ∧ ∃ i, decode s.pend = .ok i ∧ ((∃ alg, i = .init alg) ∨ ∃ alg len, i = .hmacInit alg len)) ∨
    (s.rst = true ∧ s.inbox.head? = some (.resetInput false))

/-- R207: for every message of fewer than 2^61 bytes the command sequence INIT, one BLOCK per full 64-byte prefix, FINAL with the
tail ends without error, in FINALIZED, with COUNT the message's length and H the words of `digest(m)`. -/
def Obligations.DigestOfEveryMessage : Prop :=
  ∀ (alg : Alg) (m : List Byte) (s : State), m.length < 2 ^ 61 →
    ∃ t, hashMessage alg m s = .next t ∧ t.err = .none ∧ t.phase = .finalized ∧ t.hmacm = false ∧ t.algl = alg ∧
      t.count.toNat = m.length ∧ serialize t.h alg.digestLen = digest alg m

/-! ### 45_hmac.md -/

/-- R220: HMAC_INIT. `b` is BLK afterwards, "unspecified"; `d` is the model's own draw counter (log entry 2). -/
def Obligations.HmacInitStartsAComputation : Prop :=
  ∀ (alg k : Nat) (s : State),
    (alg < 2 → k ≤ 64 → ∃ (b : Vector Byte 64) (d : Nat), exec (.hmacInit alg k) s = .next
      (let kblk := keyBlock (s.keyBuf.toList.take k)
      { s with
        kblk := kblk
        algl := if alg = 0 then .sha1 else .sha256
        h :=
          if alg = 0 then compress1 iv1 (kblk.toList.map (· ^^^ 0x36))
          else compress256 iv256 (kblk.toList.map (· ^^^ 0x36))
        count := 64, hmacm := true, phase := .accumulating, blk := b, draws := d, err := .none, busy := false })) ∧
    (2 ≤ alg → exec (.hmacInit alg k) s = .next { s with err := .unsupportedAlgorithm, busy := false }) ∧
    (alg < 2 → 64 < k → exec (.hmacInit alg k) s = .next { s with err := .keyLengthExceeded, busy := false })

/-- R221, R223, R224: the bytes of the Key Block and of ipad and opad. -/
def Obligations.KeyBlockAndPadBytes : Prop :=
  ∀ (key : List Byte) (j : Fin 64), key.length ≤ 64 →
    (keyBlock key)[j.val] = (if h : j.val < key.length then key[j.val] else 0) ∧
    (ipad (keyBlock key))[j.val]? = some ((keyBlock key)[j.val] ^^^ 0x36) ∧
    (opad (keyBlock key))[j.val]? = some ((keyBlock key)[j.val] ^^^ 0x5C)

/-- R225: the outer digest compresses exactly two blocks, opad and `inner || 0x80 || zeros || be64_encode(8·(64 + D))`. -/
def Obligations.OuterDigestIsTwoBlocks : Prop :=
  ∀ (kblk : Vector Byte 64) (h : Vector Word 8),
    hmacOuter .sha1 kblk h =
      compress1 (compress1 iv1 (kblk.toList.map (· ^^^ 0x5C)))
        (serialize h 20 ++ [0x80] ++ List.replicate 35 0 ++ be64Encode 0x2A0) ∧
    hmacOuter .sha256 kblk h =
      compress256 (compress256 iv256 (kblk.toList.map (· ^^^ 0x5C)))
        (serialize h 32 ++ [0x80] ++ List.replicate 23 0 ++ be64Encode 0x300)

/-- R227: for every key of at most 64 bytes and every message the command sequence HMAC_INIT, BLOCKs, FINAL ends without error
with COUNT = 64 + L and H the words of `digest(opad || digest(ipad || m))`. -/
def Obligations.MacOfEveryMessage : Prop :=
  ∀ (alg : Alg) (key m : List Byte) (s : State), key.length ≤ 64 → 64 + m.length < 2 ^ 61 →
    ∃ t, macMessage alg key m s = .next t ∧ t.err = .none ∧ t.phase = .finalized ∧ t.hmacm = true ∧ t.algl = alg ∧
      t.count.toNat = 64 + m.length ∧ serialize t.h alg.digestLen = hmac alg key m

/-- R220 ("KEYBUF[k .. 63] is never read") and R278 (after HMAC_INIT the host may overwrite KEY without affecting the MAC): the
results depend on no other byte of KEYBUF. -/
def Obligations.MacDoesNotDependOnOtherKeyBytes : Prop :=
  (∀ (alg k : Nat) (s t : State) (b : Vector Byte 64), (∀ j : Fin 64, j.val < k → b[j.val] = s.keyBuf[j.val]) →
    exec (.hmacInit alg k) s = .next t → ∃ u, exec (.hmacInit alg k) { s with keyBuf := b } = .next u ∧
      u.h = t.h ∧ u.kblk = t.kblk ∧ u.err = t.err ∧ u.count = t.count ∧ u.phase = t.phase ∧
      u.algl = t.algl ∧ u.hmacm = t.hmacm) ∧
  (∀ (i : Instr) (s t : State) (b : Vector Byte 64), (i = .block ∨ ∃ n, i = .final n) →
    exec i s = .next t → ∃ u, exec i { s with keyBuf := b } = .next u ∧
      u.h = t.h ∧ u.kblk = t.kblk ∧ u.err = t.err ∧ u.count = t.count ∧ u.phase = t.phase ∧
      u.algl = t.algl ∧ u.hmacm = t.hmacm)

/-! ### 60_exceptions.md: errors -/

/-- R241: a command that ends with an error code, a reserved opcode among them, writes ERR and BUSY and nothing else. -/
def Obligations.ErrorsArePrecise : Prop :=
  (∀ (i : Instr) (s t : State), exec i s = .next t → t.err ≠ .none → t = { s with err := t.err, busy := false }) ∧
  ∀ s t : State, s.engineTurn = true → step s = .next t → t.err ≠ .none → t = { s with err := t.err, busy := false }

/-- R242, R243: in every state that meets the invariant FINAL never overflows: COUNT + n stays below 2^61 and its bit length fits
the 64-bit field. -/
def Obligations.FinalLengthIsNeverTruncated : Prop :=
  ∀ (n : Nat) (s t : State), s.Inv → exec (.final n) s = .next t → t.err = .none →
    t.count.toNat = s.count.toNat + n ∧ s.count.toNat + n < 2 ^ 61 ∧ 8 * (s.count.toNat + n) < 2 ^ 64

/-- R247, R52: the machine stops exactly where the host's turn meets an access of another width, at an offset not a multiple of
4, or at an offset ≥ 0x100; and it never refuses an instruction. That an access queued while reset is asserted is used up without
a fault is the model's choice (log entry 6). -/
def Obligations.MachineStopsOnlyOnBadAccess : Prop :=
  (∀ (s : State) (f : Fault), step s = .fault f ↔
    s.HostTurn ∧ ∃ off width, f = .badAccess off width ∧ (width ≠ 4 ∨ off % 4 ≠ 0 ∨ 0x100 ≤ off) ∧
      (s.inbox.head? = some (.read off width) ∨ ∃ v, s.inbox.head? = some (.write off width v))) ∧
  (∀ (s : State) (r : Refusal), step s ≠ .refused r)

/-- R34, R246: OVR is set by exactly the writes to CMD, BLOCK and KEY dropped while BUSY = 1, and cleared only by a STATUS write
with bit 1 set or by reset. That reset clears it at its release, and not before, is the model's choice (log entry 16). -/
def Obligations.OvrIsSticky : Prop :=
  ∀ s t : State, step s = .next t →
    (s.ovr = true → t.ovr = false →
      (s.engineTurn = false ∧ ∃ v : Word, v.getLsbD 1 = true ∧ s.inbox.head? = some (.write 0x08 4 v)) ∨
      (s.rst = true ∧ s.inbox.head? = some (.resetInput false))) ∧
    (s.ovr = false → t.ovr = true →
      s.engineTurn = false ∧ s.busy = true ∧ ∃ off v, s.inbox.head? = some (.write off 4 v) ∧
        (off = 0x04 ∨ (0x40 ≤ off ∧ off < 0xC0))) ∧
    (s.HostTurn → s.busy = true → (∃ off v, s.inbox.head? = some (.write off 4 v) ∧
      (off = 0x04 ∨ (0x40 ≤ off ∧ off < 0xC0))) → t.ovr = true)

/-- R263: a step of one core of a platform never changes another core. -/
def Obligations.CoresAreIndependent : Prop :=
  ∀ (k j : Nat) (p q : Platform), p.stepAt k = .next q → j ≠ k → q.length = p.length ∧ q[j]? = p[j]?

/-! ### 10_state.md and 20_memory.md: the register window -/

/-- R37: ID always reads 0x53484131, while BUSY = 1 too, and a write to it changes nothing. -/
def Obligations.IdAlwaysReadsItsConstant : Prop :=
  ∀ s : State, s.HostTurn → s.Reads 0x00 0x53484131 ∧ ∀ v, s.Writes 0x00 v s

/-- R38: STATUS reads exactly, at every time, as the word of these fields, the reserved bits 0; a write clears OVR if bit 1 is set
and changes nothing else. After reset it reads 0. The codes of ERR are R240's, of PHASE R30's and of ALG R31's. -/
def Obligations.StatusRegister : Prop :=
  State.reset.Reads 0x08 0 ∧ ∀ s : State, s.HostTurn →
    (∀ v : Word, s.Writes 0x08 v { s with ovr := if v.getLsbD 1 then false else s.ovr }) ∧
    ∃ w : Word, s.Reads 0x08 w ∧
    w.getLsbD 0 = s.busy ∧ w.getLsbD 1 = s.ovr ∧ w.extractLsb' 2 2 = 0 ∧
    (w.extractLsb' 4 4 = match s.err with
      | .none => 0
      | .illegalCommand => 1
      | .unsupportedAlgorithm => 2
      | .invalidArgument => 3
      | .keyLengthExceeded => 4
      | .sequence => 5
      | .lengthOverflow => 6) ∧
    (w.extractLsb' 8 2 = match s.phase with
      | .fresh => 0
      | .accumulating => 1
      | .finalized => 2) ∧
    w.extractLsb' 10 2 = 0 ∧
    (w.extractLsb' 12 1 = match s.algl with
      | .sha1 => 0
      | .sha256 => 1) ∧
    w.getLsbD 13 = s.hmacm ∧ w.extractLsb' 14 18 = 0

/-- R40: COUNT_LO and COUNT_HI are the halves of COUNT while BUSY = 0; writes to them are ignored. -/
def Obligations.CountIsReadInTwoHalves : Prop :=
  ∀ s : State, s.HostTurn →
    (s.busy = false → ∃ lo hi : Word, s.Reads 0x10 lo ∧ s.Reads 0x14 hi ∧
      hi.toNat * 2 ^ 32 + lo.toNat = s.count.toNat ∧ hi.extractLsb' 29 3 = 0) ∧
    ∀ v, s.Writes 0x10 v s ∧ s.Writes 0x14 v s

/-- R41: DIGEST[i] = H[i] while BUSY = 0; writes are ignored. -/
def Obligations.DigestRegistersReadH : Prop :=
  ∀ (s : State) (i : Fin 8), s.HostTurn →
    (s.busy = false → s.Reads (0xC0 + 4 * i.val) s.h[i.val]) ∧ ∀ v, s.Writes (0xC0 + 4 * i.val) v s

/-- R55: BLOCK[i] and KEY[i] read as the big-endian words of their four bytes while BUSY = 0. -/
def Obligations.BufferRegistersReadBigEndian : Prop :=
  ∀ (s : State) (i : Fin 16), s.HostTurn → s.busy = false →
    s.Reads (0x40 + 4 * i.val)
      (be32Decode s.blk[4 * i.val] s.blk[4 * i.val + 1] s.blk[4 * i.val + 2] s.blk[4 * i.val + 3]) ∧
    s.Reads (0x80 + 4 * i.val)
      (be32Decode s.keyBuf[4 * i.val] s.keyBuf[4 * i.val + 1] s.keyBuf[4 * i.val + 2] s.keyBuf[4 * i.val + 3])

/-- R55: a write of BLOCK[i] or KEY[i] while BUSY = 0 stores `be32_encode(v)` in its own four bytes and changes no other byte. -/
def Obligations.BufferRegisterWritesOwnBytes : Prop :=
  ∀ (s : State) (i : Fin 16) (v : Word), s.HostTurn → s.busy = false →
    (∃ b : Vector Byte 64, s.Writes (0x40 + 4 * i.val) v { s with blk := b } ∧
      ∀ j : Fin 64, some b[j.val] = if j.val / 4 = i.val then (be32Encode v)[j.val % 4]? else some s.blk[j.val]) ∧
    (∃ b : Vector Byte 64, s.Writes (0x80 + 4 * i.val) v { s with keyBuf := b } ∧
      ∀ j : Fin 64, some b[j.val] = if j.val / 4 = i.val then (be32Encode v)[j.val % 4]? else some s.keyBuf[j.val])

/-- R39, R53: CMD reads 0 while BUSY = 0; the reserved offsets read 0 and ignore writes at every time and never set OVR. -/
def Obligations.ReservedOffsetsReadZero : Prop :=
  ∀ s : State, s.HostTurn → (s.busy = false → s.Reads 0x04 0) ∧
    ∀ off, off % 4 = 0 → (off = 0x0C ∨ (0x18 ≤ off ∧ off < 0x40) ∨ (0xE0 ≤ off ∧ off < 0x100)) →
      s.Reads off 0 ∧ ∀ v, s.Writes off v s

/-- R56: while BUSY = 1 a write to BLOCK[i] or KEY[i] is dropped and sets OVR, and a read of any register completes and changes
no state element, whatever word it returns and whatever is queued behind it. -/
def Obligations.BusyAccesses : Prop :=
  ∀ s : State, s.HostTurn → s.busy = true →
    (∀ (i : Fin 16) (v : Word), s.Writes (0x40 + 4 * i.val) v { s with ovr := true } ∧
      s.Writes (0x80 + 4 * i.val) v { s with ovr := true }) ∧
    ∀ (off : Nat) (rest : List HostOp), off % 4 = 0 → off < 0x100 →
      ∃ t w, step { s with inbox := .read off 4 :: rest } = .next t ∧ t.reply = some w ∧ t.inbox = rest ∧ s.SameCore t

/-- R60: no read changes a state element, at any time; only the host's own queue and answer, and the model's counters, move.
Of a read queued while reset is asserted this says two choices of the model: it is used up unperformed (log entry 6), and the state
elements keep their values until release (log entry 16). -/
def Obligations.ReadsHaveNoSideEffects : Prop :=
  ∀ (s t : State) (off width : Nat) (rest : List HostOp), s.engineTurn = false →
    s.inbox = .read off width :: rest → step s = .next t → s.SameCore t ∧ t.inbox = rest ∧ t.rst = s.rst

/-- R45, R200: in the host's turn only BLK changes (by a BLOCK write), KEYBUF (by a KEY write), PEND, BUSY and ERR (by a CMD write)
and OVR, unless reset is released. That asserting reset, and a step in it, change none of them is the model's choice (log entry 16). -/
def Obligations.HostWritesOnlyItsElements : Prop :=
  ∀ s t : State, s.engineTurn = false → s.inbox.head? ≠ some (.resetInput false) → step s = .next t →
    t.h = s.h ∧ t.kblk = s.kblk ∧ t.count = s.count ∧ t.phase = s.phase ∧ t.algl = s.algl ∧ t.hmacm = s.hmacm ∧
    (t.blk ≠ s.blk → ∃ off v, s.inbox.head? = some (.write off 4 v) ∧ 0x40 ≤ off ∧ off < 0x80) ∧
    (t.keyBuf ≠ s.keyBuf → ∃ off v, s.inbox.head? = some (.write off 4 v) ∧ 0x80 ≤ off ∧ off < 0xC0) ∧
    ((t.pend ≠ s.pend ∨ t.busy ≠ s.busy ∨ t.err ≠ s.err) → ∃ v, s.inbox.head? = some (.write 0x04 4 v))

/-- R45, R26, R27, R34: what no command writes. Every command leaves KEYBUF, PEND, OVR and the host side as they were; only HMAC_INIT
writes KBLK, and INIT leaves BLK. -/
def Obligations.CommandFrame : Prop :=
  ∀ (i : Instr) (s t : State), exec i s = .next t →
    t.keyBuf = s.keyBuf ∧ t.pend = s.pend ∧ t.ovr = s.ovr ∧ t.rst = s.rst ∧ t.slack = s.slack ∧ t.inbox = s.inbox ∧
    t.reply = s.reply ∧ ((∀ alg len, i ≠ .hmacInit alg len) → t.kblk = s.kblk) ∧ ((∃ alg, i = .init alg) → t.blk = s.blk)

/-- R64, R67: from acceptance to the engine's step BLK, KEYBUF and PEND cannot change: the command runs on its operands as they
stood. That they and BUSY are held also while reset is asserted, until the release, is the model's choice (log entry 16). -/
def Obligations.OperandsAreHeldWhileBusy : Prop :=
  ∀ s t : State, s.busy = true → s.engineTurn = false → s.inbox.head? ≠ some (.resetInput false) → step s = .next t →
    t.blk = s.blk ∧ t.keyBuf = s.keyBuf ∧ t.pend = s.pend ∧ t.busy = true

/-- R28: the host cannot read KBLK: while BUSY = 0 no register's value depends on it. -/
def Obligations.KeyLatchIsHidden : Prop :=
  ∀ (s : State) (k : Vector Byte 64) (off : Nat) (v : Word), s.HostTurn → s.busy = false →
    s.Reads off v → { s with kblk := k }.Reads off v

/-- R89: `LOADBLK p` and `LOADKEY p` take 16 host turns and leave the buffer holding `p`, zero-filled, and nothing else changed. -/
def Obligations.LoadMacrosFillTheBuffers : Prop :=
  ∀ (s : State) (p : List Byte) (rest : List HostOp), s.busy = false → s.rst = false →
    (s.inbox = asmLoadBlk p ++ rest → ∃ t, run 16 s = .next t ∧ t.inbox = rest ∧ t.rst = false ∧
      { s with blk := zeroFill p }.SameCore t) ∧
    (s.inbox = asmLoadKey p ++ rest → ∃ t, run 16 s = .next t ∧ t.inbox = rest ∧ t.rst = false ∧
      { s with keyBuf := zeroFill p }.SameCore t)

/-! ### 40_codec.md and 41_padding.md -/

/-- R100, R101, R103: the codec is big-endian and its two directions are inverse; byte j of the 64-bit form is
`v[63 − 8j : 56 − 8j]`. -/
def Obligations.CodecDirectionsAreInverse : Prop :=
  (∀ w : Word, be32Encode w = [w.extractLsb' 24 8, w.extractLsb' 16 8, w.extractLsb' 8 8, w.extractLsb' 0 8]) ∧
  (∀ w : Word, be32Decode (w.extractLsb' 24 8) (w.extractLsb' 16 8) (w.extractLsb' 8 8) (w.extractLsb' 0 8) = w) ∧
  (∀ b0 b1 b2 b3 : Byte, be32Encode (be32Decode b0 b1 b2 b3) = [b0, b1, b2, b3]) ∧
  (∀ v : BitVec 64, (be64Encode v).length = 8 ∧
    ∀ j : Fin 8, (be64Encode v)[j.val]? = some (v.extractLsb' (56 - 8 * j.val) 8))

/-- R102: the block in BLK has 16 words, and word i is the value a host read of BLOCK[i] returns while BUSY = 0. -/
def Obligations.BlockWordsAreTheBlockRegisters : Prop :=
  ∀ (s : State) (i : Fin 16), (blockWords s.blk.toList).length = 16 ∧
    (s.HostTurn → s.busy = false →
      ∃ w, (blockWords s.blk.toList)[i.val]? = some w ∧ s.Reads (0x40 + 4 * i.val) w)

/-- R104, R41: the digest has 20 or 32 bytes, and digest byte 4i + j is `H[i][31 − 8j : 24 − 8j]`. -/
def Obligations.SerializedDigestBytes : Prop :=
  Alg.sha1.digestLen = 20 ∧ Alg.sha256.digestLen = 32 ∧
  ∀ (h : Vector Word 8) (alg : Alg), (serialize h alg.digestLen).length = alg.digestLen ∧
    ∀ (i : Fin 8) (j : Fin 4), 4 * i.val + j.val < alg.digestLen →
      (serialize h alg.digestLen)[4 * i.val + j.val]? = some (h[i.val].extractLsb' (24 - 8 * j.val) 8)

/-- R121, R122: one 64-byte block for n ≤ 55, two for 56 ≤ n ≤ 63; together the tail, 0x80, zeros and the length field. -/
def Obligations.PaddedTailShape : Prop :=
  ∀ (T : List Byte) (L : Nat), T.length ≤ 63 →
    (pad T L).length = (if T.length ≤ 55 then 1 else 2) ∧ (∀ B ∈ pad T L, B.length = 64) ∧
    (pad T L).flatten = T ++ [0x80] ++
      List.replicate (if T.length ≤ 55 then 55 - T.length else 119 - T.length) 0 ++ be64Encode (BitVec.ofNat 64 (8 * L))

/-- R125: the padded stream is the message, 0x80, zero bytes up to the length field, and the length field; and its length is the smallest multiple of 64 that
is at least L + 9. -/
def Obligations.PaddedStreamLength : Prop :=
  ∀ m : List Byte, 64 ∣ (padded m).length ∧ m.length + 9 ≤ (padded m).length ∧ (padded m).length < m.length + 9 + 64 ∧
    (padded m).take (m.length + 1) = m ++ [0x80] ∧
    (∀ j, m.length < j → j + 8 < (padded m).length → (padded m)[j]? = some 0) ∧
    (padded m).drop ((padded m).length - 8) = be64Encode (BitVec.ofNat 64 (8 * m.length))

/-- R124: the bytes of BLK past the tail do not affect any result of FINAL. -/
def Obligations.FinalDoesNotReadPastTheTail : Prop :=
  ∀ (n : Nat) (s t : State) (b : Vector Byte 64), (∀ j : Fin 64, j.val < n → b[j.val] = s.blk[j.val]) →
    exec (.final n) s = .next t → ∃ u, exec (.final n) { s with blk := b } = .next u ∧
      u.h = t.h ∧ u.count = t.count ∧ u.phase = t.phase ∧ u.algl = t.algl ∧ u.hmacm = t.hmacm ∧ u.err = t.err

/-! ### 42_sha1.md and 43_sha256.md -/

/-- R10: rotl moves bit i to bit (i + n) mod 32, rotr the other way, shr shifts zeros in. -/
def Obligations.RotatesMoveBits : Prop :=
  ∀ (x : Word) (n i : Nat), n < 32 → i < 32 →
    (rotl x n).getLsbD ((i + n) % 32) = x.getLsbD i ∧ (rotr x n).getLsbD i = x.getLsbD ((i + n) % 32) ∧
    (shr x n).getLsbD i = (decide (i + n < 32) && x.getLsbD (i + n))

/-- R143, R145, R172, R173: each bit of Ch is c's where b is 1 and d's where b is 0, each bit of Maj is the majority; the SHA-1 and
SHA-256 expressions have equal values. -/
def Obligations.ChooseAndMajority : Prop :=
  ∀ b c d : Word, ch256 b c d = ch1 b c d ∧ maj256 b c d = maj1 b c d ∧
    ∀ i, i < 32 →
      (ch1 b c d).getLsbD i = (if b.getLsbD i then c.getLsbD i else d.getLsbD i) ∧
      (maj1 b c d).getLsbD i = decide (2 ≤ (b.getLsbD i).toNat + (c.getLsbD i).toNat + (d.getLsbD i).toNat)

/-- R174 to R177: the bits of Σ0, Σ1, σ0 and σ1; the shifts of σ0 and σ1 bring zeros in. -/
def Obligations.SigmaBits : Prop :=
  ∀ (x : Word) (i : Nat), i < 32 →
    (bigSigma0 x).getLsbD i =
      (x.getLsbD ((i + 2) % 32) ^^ x.getLsbD ((i + 13) % 32) ^^ x.getLsbD ((i + 22) % 32)) ∧
    (bigSigma1 x).getLsbD i =
      (x.getLsbD ((i + 6) % 32) ^^ x.getLsbD ((i + 11) % 32) ^^ x.getLsbD ((i + 25) % 32)) ∧
    (smallSigma0 x).getLsbD i =
      (x.getLsbD ((i + 7) % 32) ^^ x.getLsbD ((i + 18) % 32) ^^ (decide (i + 3 < 32) && x.getLsbD (i + 3))) ∧
    (smallSigma1 x).getLsbD i =
      (x.getLsbD ((i + 17) % 32) ^^ x.getLsbD ((i + 19) % 32) ^^ (decide (i + 10 < 32) && x.getLsbD (i + 10)))

/-- R142 with R141: the mixing function and the round constant switch at the same rounds. -/
def Obligations.Sha1PhaseFunctions : Prop :=
  ∀ (t : Nat) (b c d : Word),
    (t ≤ 19 → f1 t b c d = (b &&& c) ||| (~~~b &&& d) ∧ k1 t = 0x5A827999) ∧
    (20 ≤ t → t ≤ 39 → f1 t b c d = b ^^^ c ^^^ d ∧ k1 t = 0x6ED9EBA1) ∧
    (40 ≤ t → t ≤ 59 → f1 t b c d = (b &&& c) ||| (b &&& d) ||| (c &&& d) ∧ k1 t = 0x8F1BBCDC) ∧
    (60 ≤ t → t ≤ 79 → f1 t b c d = b ^^^ c ^^^ d ∧ k1 t = 0xCA62C1D6)

/-- R146: the SHA-1 message schedule of a 64-byte block. -/
def Obligations.Sha1ScheduleRecurrence : Prop :=
  ∀ B : List Byte, B.length = 64 → (sched1 B).length = 80 ∧
    (∀ t, t < 16 → (sched1 B).getD t 0 = (blockWords B).getD t 0) ∧
    ∀ t, 16 ≤ t → t < 80 → (sched1 B).getD t 0 =
      rotl ((sched1 B).getD (t - 3) 0 ^^^ (sched1 B).getD (t - 8) 0 ^^^ (sched1 B).getD (t - 14) 0 ^^^
        (sched1 B).getD (t - 16) 0) 1

/-- R178: the SHA-256 message schedule of a 64-byte block. -/
def Obligations.Sha256ScheduleRecurrence : Prop :=
  ∀ B : List Byte, B.length = 64 → (sched256 B).length = 64 ∧
    (∀ t, t < 16 → (sched256 B).getD t 0 = (blockWords B).getD t 0) ∧
    ∀ t, 16 ≤ t → t < 64 → (sched256 B).getD t 0 =
      smallSigma1 ((sched256 B).getD (t - 2) 0) + (sched256 B).getD (t - 7) 0 +
        smallSigma0 ((sched256 B).getD (t - 15) 0) + (sched256 B).getD (t - 16) 0

/-- R147, R148, R171, R179, R180: the 64 constants K256, row by row; and the compression functions run their rounds in order from H,
round t on the output of round t − 1 with K and W[t], every new register computed from the old ones, and add the registers into H. -/
def Obligations.CompressionRunsItsRoundsInOrder : Prop :=
  (List.range 64).map k256 =
    [0x428A2F98, 0x71374491, 0xB5C0FBCF, 0xE9B5DBA5, 0x3956C25B, 0x59F111F1, 0x923F82A4, 0xAB1C5ED5] ++
    [0xD807AA98, 0x12835B01, 0x243185BE, 0x550C7DC3, 0x72BE5D74, 0x80DEB1FE, 0x9BDC06A7, 0xC19BF174] ++
    [0xE49B69C1, 0xEFBE4786, 0x0FC19DC6, 0x240CA1CC, 0x2DE92C6F, 0x4A7484AA, 0x5CB0A9DC, 0x76F988DA] ++
    [0x983E5152, 0xA831C66D, 0xB00327C8, 0xBF597FC7, 0xC6E00BF3, 0xD5A79147, 0x06CA6351, 0x14292967] ++
    [0x27B70A85, 0x2E1B2138, 0x4D2C6DFC, 0x53380D13, 0x650A7354, 0x766A0ABB, 0x81C2C92E, 0x92722C85] ++
    [0xA2BFE8A1, 0xA81A664B, 0xC24B8B70, 0xC76C51A3, 0xD192E819, 0xD6990624, 0xF40E3585, 0x106AA070] ++
    [0x19A4C116, 0x1E376C08, 0x2748774C, 0x34B0BCB5, 0x391C0CB3, 0x4ED8AA4A, 0x5B9CCA4F, 0x682E6FF3] ++
    [0x748F82EE, 0x78A5636F, 0x84C87814, 0x8CC70208, 0x90BEFFFA, 0xA4506CEB, 0xBEF9A3F7, 0xC67178F2] ∧
  ∀ (h : Vector Word 8) (B : List Byte), B.length = 64 →
    (∃ r : Nat → Work1, r 0 = { a := h[0], b := h[1], c := h[2], d := h[3], e := h[4] } ∧
      (∀ t, t < 80 →
        (r (t + 1)).a = rotl (r t).a 5 + f1 t (r t).b (r t).c (r t).d + (r t).e + k1 t + (sched1 B).getD t 0 ∧
        (r (t + 1)).b = (r t).a ∧ (r (t + 1)).c = rotl (r t).b 30 ∧ (r (t + 1)).d = (r t).c ∧ (r (t + 1)).e = (r t).d) ∧
      compress1 h B = #v[h[0] + (r 80).a, h[1] + (r 80).b, h[2] + (r 80).c, h[3] + (r 80).d, h[4] + (r 80).e,
        h[5], h[6], h[7]]) ∧
    (∃ r : Nat → Work256,
      r 0 = { a := h[0], b := h[1], c := h[2], d := h[3], e := h[4], f := h[5], g := h[6], h := h[7] } ∧
      (∀ t, t < 64 →
        let t1 := (r t).h + bigSigma1 (r t).e + ch256 (r t).e (r t).f (r t).g + k256 t + (sched256 B).getD t 0
        let t2 := bigSigma0 (r t).a + maj256 (r t).a (r t).b (r t).c
        (r (t + 1)).a = t1 + t2 ∧ (r (t + 1)).b = (r t).a ∧ (r (t + 1)).c = (r t).b ∧ (r (t + 1)).d = (r t).c ∧
        (r (t + 1)).e = (r t).d + t1 ∧ (r (t + 1)).f = (r t).e ∧ (r (t + 1)).g = (r t).f ∧ (r (t + 1)).h = (r t).g) ∧
      compress256 h B = #v[h[0] + (r 64).a, h[1] + (r 64).b, h[2] + (r 64).c, h[3] + (r 64).d, h[4] + (r 64).e,
        h[5] + (r 64).f, h[6] + (r 64).g, h[7] + (r 64).h])

/-! ### 70_reset_and_hazards.md and the invariant -/

/-- R43, R270: the reset values. -/
def Obligations.ResetValues : Prop :=
  State.reset.h = Vector.replicate 8 0 ∧ State.reset.blk = Vector.replicate 64 0 ∧
  State.reset.keyBuf = Vector.replicate 64 0 ∧ State.reset.kblk = Vector.replicate 64 0 ∧ State.reset.pend = 0 ∧
  State.reset.count = 0 ∧ State.reset.phase.code = 0 ∧ State.reset.algl.code = 0 ∧ State.reset.hmacm = false ∧
  State.reset.err.code = 0 ∧ State.reset.ovr = false ∧ State.reset.busy = false ∧ State.reset.Reads 0x08 0 ∧
  State.reset.Reads 0x00 0x53484131

/-- R270, R271: when the reset input is deasserted every state element holds its reset value, also when reset was asserted while
BUSY = 1. That the host's queue stays (`t.inbox = rest`) is the model's choice (log entry 16). -/
def Obligations.ResetRestoresEveryElement : Prop :=
  (∀ (s : State) (rest : List HostOp), s.rst = true → s.inbox = .resetInput false :: rest →
    ∃ t, step s = .next t ∧ State.reset.SameCore t ∧ t.rst = false ∧ t.inbox = rest) ∧
  (∀ (s : State) (rest : List HostOp), s.engineTurn = false → s.inbox = .resetInput true :: .resetInput false :: rest →
    ∃ t, run 2 s = .next t ∧ State.reset.SameCore t ∧ t.rst = false ∧ t.inbox = rest)

/-- R270: while the reset input is asserted no host access is performed and the engine takes no step. That the state elements
keep their values until release is the model's choice: R270 fixes them only at deassertion (log entry 16). -/
def Obligations.NothingHappensInReset : Prop :=
  ∀ s : State, s.rst = true → s.inbox.head? ≠ some (.resetInput false) →
    ∃ t, step s = .next t ∧ s.SameCore t ∧ t.rst = true ∧ t.reply = none

/-- R255: with BUSY = 0 and no host access the core is idle and keeps every state element. That it does so also while
reset is asserted is the model's choice (log entry 16). -/
def Obligations.IdleCoreKeepsItsState : Prop :=
  ∀ s : State, s.busy = false → s.inbox = [] → ∃ t, step s = .next t ∧ s.SameCore t ∧ t.inbox = [] ∧ t.rst = s.rst

/-- R283: every accepted command completes: after LATENCY host turns and one engine step BUSY is 0, whatever permitted accesses the
host makes in the meantime. LATENCY counted in host turns is the model's form (log entry 1). -/
def Obligations.AcceptedCommandCompletes : Prop :=
  ∀ s : State, s.busy = true → s.rst = false → s.hostWellBehaved = true →
    ∃ t, run (s.slack + 1) s = .next t ∧ t.busy = false

/-- R89, R283: the WAIT loop ends, with a STATUS value whose bit 0 is 0. WAIT as one queued operation and LATENCY in host turns
are the model's form (log entries 7, 1). -/
def Obligations.WaitLoopEnds : Prop :=
  ∀ (s : State) (rest : List HostOp), s.rst = false → s.inbox = .wait :: rest →
    ∃ k t w, k ≤ s.slack + 2 ∧ run k s = .next t ∧ t.inbox = rest ∧ t.rst = false ∧ t.busy = false ∧
      t.reply = some w ∧ w.getLsbD 0 = false

/-- R200, R201, R283: a command word written to CMD and waited for has the effect `exec` gives its command on the state of the
write. BLK stays under INIT and under every command that ends in an error (R202, R241); after the others it is unspecified
(R25) and nothing is said of it. LATENCY in host turns and WAIT as one queued operation are the model's form (log entries 1, 7). -/
def Obligations.WrittenCommandTakesEffect : Prop :=
  ∀ (s : State) (v : Word) (i : Instr) (rest : List HostOp), s.busy = false → s.rst = false → decode v = .ok i →
    s.inbox = asmWr 0x04 v :: .wait :: rest →
    ∃ k t u, run k s = .next t ∧ exec i { s with pend := v, err := .none, busy := true } = .next u ∧
      t.inbox = rest ∧ t.rst = false ∧ t.h = u.h ∧ t.keyBuf = u.keyBuf ∧ t.kblk = u.kblk ∧ t.pend = u.pend ∧ t.count = u.count ∧
      t.phase = u.phase ∧ t.algl = u.algl ∧ t.hmacm = u.hmacm ∧ t.err = u.err ∧ t.ovr = u.ovr ∧ t.busy = u.busy ∧
      (((∃ alg, i = .init alg) ∨ u.err ≠ .none) → t.blk = s.blk)

/-- R207, R227 at the register window: whatever LATENCY is, the bus traffic of those rules, ended by its last WAIT, leaves BUSY = 0,
ERR = 0, PHASE = FINALIZED, COUNT the length of the digest input and H the words of the digest or of the MAC. WAIT as one queued
operation and LATENCY in host turns are the model's form (log entries 7, 1). -/
def Obligations.BusTrafficComputesDigestAndMac : Prop :=
  ∀ (alg : Alg) (m : List Byte) (s : State) (rest : List HostOp), s.busy = false → s.rst = false →
    (m.length < 2 ^ 61 → s.inbox = asmHash alg m ++ rest →
      ∃ k t, run k s = .next t ∧ t.inbox = rest ∧ t.busy = false ∧ t.err = .none ∧ t.ovr = s.ovr ∧
        t.phase = .finalized ∧ t.hmacm = false ∧ t.algl = alg ∧ t.count.toNat = m.length ∧
        serialize t.h alg.digestLen = digest alg m) ∧
    (∀ key : List Byte, key.length ≤ 64 → 64 + m.length < 2 ^ 61 → s.inbox = asmMac alg key m ++ rest →
      ∃ k t, run k s = .next t ∧ t.inbox = rest ∧ t.busy = false ∧ t.err = .none ∧ t.ovr = s.ovr ∧
        t.phase = .finalized ∧ t.hmacm = true ∧ t.algl = alg ∧ t.count.toNat = 64 + m.length ∧
        serialize t.h alg.digestLen = hmac alg key m)

/-- The invariant holds at reset. -/
def Obligations.ResetMeetsInvariant : Prop := State.reset.Inv

/-- Every step keeps the invariant: COUNT stays a multiple of 64 while accumulating, FRESH means reset values, the unused words
of H are 0 under SHA-1, ERR is clear while BUSY = 1. That a step in reset keeps it too rests on the elements keeping
their values until release (log entry 16). -/
def Obligations.StepKeepsInvariant : Prop :=
  ∀ s t : State, s.Inv → step s = .next t → t.Inv
end

