-- ==== Sys2Proof/Laws/Blocks.lean ====
section
/-! SUPPORT. What the codec, the schedules, the rounds and the cutting of a message into blocks come to: the inductions that
later proofs cite. -/

namespace Sys2Proof.Machine

open Sys2Proof

/-! ### Bytes and words -/

@[simp] theorem be32Encode_length (w : Word) : (be32Encode w).length = 4 := rfl

@[simp] theorem be64Encode_length (v : BitVec 64) : (be64Encode v).length = 8 := rfl

@[simp] theorem lengthField_length (L : Nat) : (lengthField L).length = 8 := rfl

theorem serialize_length (h : Vector Word 8) (alg : Alg) : (serialize h alg.digestLen).length = alg.digestLen := by
  cases alg <;> simp [serialize, Alg.digestLen, List.length_flatMap]

theorem blockWords_length : ∀ (n : Nat) (B : List Byte), B.length = 4 * n → (blockWords B).length = n
  | 0, B, h => by
    have : B = [] := List.length_eq_zero_iff.1 (by omega)
    subst this
    rfl
  | n + 1, b0 :: b1 :: b2 :: b3 :: B, h => by
    simp only [blockWords, List.length_cons]
    rw [blockWords_length n B (by simp at h; omega)]
  | _ + 1, [], h => by simp at h
  | _ + 1, [_], h => by simp at h; omega
  | _ + 1, [_, _], h => by simp at h; omega
  | _ + 1, [_, _, _], h => by simp at h; omega

theorem blockWords_getElem? : ∀ (B : List Byte) (i : Nat) (h : 4 * i + 3 < B.length),
    (blockWords B)[i]? = some (be32Decode (B[4 * i]) (B[4 * i + 1]) (B[4 * i + 2]) (B[4 * i + 3]))
  | b0 :: b1 :: b2 :: b3 :: B, 0, _ => rfl
  | b0 :: b1 :: b2 :: b3 :: B, i + 1, h => by
    simp only [blockWords, List.getElem?_cons_succ]
    rw [blockWords_getElem? B i (by simp at h; omega)]
    rfl
  | [], _, h => by simp at h
  | [_], _, h => by simp at h
  | [_, _], _, h => by simp at h
  | [_, _, _], _, h => by simp at h

/-! ### Schedules and rounds -/

/-- `extend1` puts `k` words before `newest`, each the recurrence applied to the words after it. -/
theorem extend1_spec (k : Nat) (newest : List Word) : ∃ e, extend1 k newest = e ++ newest ∧ e.length = k ∧
    ∀ j, j < k → (extend1 k newest).getD j 0 = next1 ((extend1 k newest).drop (j + 1)) := by
  induction k generalizing newest with
  | zero => exact ⟨[], rfl, rfl, by simp⟩
  | succ k ih =>
    obtain ⟨e, h1, h2, h3⟩ := ih (next1 newest :: newest)
    refine ⟨e ++ [next1 newest], by simp [extend1, h1], by simp [h2], fun j hj => ?_⟩
    show (extend1 k (next1 newest :: newest)).getD j 0 = next1 ((extend1 k (next1 newest :: newest)).drop (j + 1))
    rcases Nat.lt_or_eq_of_le (Nat.le_of_lt_succ hj) with hjk | rfl
    · exact h3 j hjk
    · rw [h1]; subst h2; simp

/-- `extend256` puts `k` words before `newest`, each the recurrence applied to the words after it. -/
theorem extend256_spec (k : Nat) (newest : List Word) : ∃ e, extend256 k newest = e ++ newest ∧ e.length = k ∧
    ∀ j, j < k → (extend256 k newest).getD j 0 = next256 ((extend256 k newest).drop (j + 1)) := by
  induction k generalizing newest with
  | zero => exact ⟨[], rfl, rfl, by simp⟩
  | succ k ih =>
    obtain ⟨e, h1, h2, h3⟩ := ih (next256 newest :: newest)
    refine ⟨e ++ [next256 newest], by simp [extend256, h1], by simp [h2], fun j hj => ?_⟩
    show (extend256 k (next256 newest :: newest)).getD j 0 =
      next256 ((extend256 k (next256 newest :: newest)).drop (j + 1))
    rcases Nat.lt_or_eq_of_le (Nat.le_of_lt_succ hj) with hjk | rfl
    · exact h3 j hjk
    · rw [h1]; subst h2; simp

/-- The registers after each of the rounds `rounds1` runs. -/
theorem rounds1_spec (W : List Word) (t₀ : Nat) (r₀ : Work1) : ∃ r : Nat → Work1, r 0 = r₀ ∧
    (∀ t, t < W.length → r (t + 1) = round1 (t₀ + t) (W.getD t 0) (r t)) ∧ rounds1 t₀ W r₀ = r W.length := by
  induction W generalizing t₀ r₀ with
  | nil => exact ⟨fun _ => r₀, rfl, by simp, rfl⟩
  | cons w ws ih =>
    obtain ⟨r, h1, h2, h3⟩ := ih (t₀ + 1) (round1 t₀ w r₀)
    refine ⟨fun n => match n with | 0 => r₀ | n + 1 => r n, rfl, fun t ht => ?_, by simpa [rounds1] using h3⟩
    cases t with
    | zero => simp [h1]
    | succ t =>
      simp only [h2 t (by simpa using ht)]
      simp [Nat.add_assoc, Nat.add_comm 1 t]

/-- The registers after each of the rounds `rounds256` runs. -/
theorem rounds256_spec (W : List Word) (t₀ : Nat) (r₀ : Work256) : ∃ r : Nat → Work256, r 0 = r₀ ∧
    (∀ t, t < W.length → r (t + 1) = round256 (t₀ + t) (W.getD t 0) (r t)) ∧ rounds256 t₀ W r₀ = r W.length := by
  induction W generalizing t₀ r₀ with
  | nil => exact ⟨fun _ => r₀, rfl, by simp, rfl⟩
  | cons w ws ih =>
    obtain ⟨r, h1, h2, h3⟩ := ih (t₀ + 1) (round256 t₀ w r₀)
    refine ⟨fun n => match n with | 0 => r₀ | n + 1 => r n, rfl, fun t ht => ?_, by simpa [rounds256] using h3⟩
    cases t with
    | zero => simp [h1]
    | succ t =>
      simp only [h2 t (by simpa using ht)]
      simp [Nat.add_assoc, Nat.add_comm 1 t]

/-! ### Messages and blocks -/

theorem blocks_append (q r : Nat) (a b : List Byte) (h : a.length = 64 * q) :
    blocks (q + r) (a ++ b) = blocks q a ++ blocks r b := by
  induction q generalizing a with
  | zero =>
    have : a = [] := List.length_eq_zero_iff.1 (by omega)
    subst this
    simp [blocks]
  | succ q ih =>
    rw [show q + 1 + r = (q + r) + 1 by omega]
    simp only [blocks]
    rw [List.take_append_of_le_length (by omega), List.drop_append_of_le_length (by omega), ih _ (by simp; omega)]
    rfl

theorem blocks_length (q : Nat) (m : List Byte) (h : 64 * q ≤ m.length) :
    (blocks q m).length = q ∧ ∀ b ∈ blocks q m, b.length = 64 := by
  induction q generalizing m with
  | zero => simp [blocks]
  | succ q ih =>
    obtain ⟨a, b⟩ := ih (m.drop 64) (by simp; omega)
    simp only [blocks, List.length_cons, a, List.mem_cons, forall_eq_or_imp]
    exact ⟨trivial, by simp; omega, b⟩

/-- A buffer loaded with at most 64 bytes begins with them. -/
theorem zeroFill_take (p : List Byte) (h : p.length ≤ 64) : (zeroFill p).toList.take p.length = p := by
  apply List.ext_getElem
  · simp [h]
  · intro i _ h2
    simp [zeroFill, List.getD_eq_getElem?_getD, h2]

end Sys2Proof.Machine
end

