-- ==== Sys2Proof/Laws/State.lean ====
section
/-! SUPPORT. What each named update of State leaves in each field, one lemma a field, so that no later proof unfolds a
record update. -/

namespace Sys2Proof.Machine

open Sys2Proof

section raise_fields
variable (s : State) (c : ErrCode)
@[simp] theorem raise_h : (State.raise s c).h = s.h := rfl
@[simp] theorem raise_blk : (State.raise s c).blk = s.blk := rfl
@[simp] theorem raise_keyBuf : (State.raise s c).keyBuf = s.keyBuf := rfl
@[simp] theorem raise_kblk : (State.raise s c).kblk = s.kblk := rfl
@[simp] theorem raise_pend : (State.raise s c).pend = s.pend := rfl
@[simp] theorem raise_count : (State.raise s c).count = s.count := rfl
@[simp] theorem raise_phase : (State.raise s c).phase = s.phase := rfl
@[simp] theorem raise_algl : (State.raise s c).algl = s.algl := rfl
@[simp] theorem raise_hmacm : (State.raise s c).hmacm = s.hmacm := rfl
@[simp] theorem raise_err : (State.raise s c).err = c := rfl
@[simp] theorem raise_ovr : (State.raise s c).ovr = s.ovr := rfl
@[simp] theorem raise_busy : (State.raise s c).busy = false := rfl
@[simp] theorem raise_rst : (State.raise s c).rst = s.rst := rfl
@[simp] theorem raise_base : (State.raise s c).base = s.base := rfl
@[simp] theorem raise_slack : (State.raise s c).slack = s.slack := rfl
@[simp] theorem raise_draws : (State.raise s c).draws = s.draws := rfl
@[simp] theorem raise_inbox : (State.raise s c).inbox = s.inbox := rfl
@[simp] theorem raise_reply : (State.raise s c).reply = s.reply := rfl
end raise_fields

section finish_fields
variable (s : State)
@[simp] theorem finish_h : (State.finish s).h = s.h := rfl
@[simp] theorem finish_blk : (State.finish s).blk = s.blk := rfl
@[simp] theorem finish_keyBuf : (State.finish s).keyBuf = s.keyBuf := rfl
@[simp] theorem finish_kblk : (State.finish s).kblk = s.kblk := rfl
@[simp] theorem finish_pend : (State.finish s).pend = s.pend := rfl
@[simp] theorem finish_count : (State.finish s).count = s.count := rfl
@[simp] theorem finish_phase : (State.finish s).phase = s.phase := rfl
@[simp] theorem finish_algl : (State.finish s).algl = s.algl := rfl
@[simp] theorem finish_hmacm : (State.finish s).hmacm = s.hmacm := rfl
@[simp] theorem finish_err : (State.finish s).err = .none := rfl
@[simp] theorem finish_ovr : (State.finish s).ovr = s.ovr := rfl
@[simp] theorem finish_busy : (State.finish s).busy = false := rfl
@[simp] theorem finish_rst : (State.finish s).rst = s.rst := rfl
@[simp] theorem finish_base : (State.finish s).base = s.base := rfl
@[simp] theorem finish_slack : (State.finish s).slack = s.slack := rfl
@[simp] theorem finish_draws : (State.finish s).draws = s.draws := rfl
@[simp] theorem finish_inbox : (State.finish s).inbox = s.inbox := rfl
@[simp] theorem finish_reply : (State.finish s).reply = s.reply := rfl
end finish_fields

section accept_fields
variable (s : State) (v : Word)
@[simp] theorem accept_h : (State.accept s v).h = s.h := rfl
@[simp] theorem accept_blk : (State.accept s v).blk = s.blk := rfl
@[simp] theorem accept_keyBuf : (State.accept s v).keyBuf = s.keyBuf := rfl
@[simp] theorem accept_kblk : (State.accept s v).kblk = s.kblk := rfl
@[simp] theorem accept_pend : (State.accept s v).pend = v := rfl
@[simp] theorem accept_count : (State.accept s v).count = s.count := rfl
@[simp] theorem accept_phase : (State.accept s v).phase = s.phase := rfl
@[simp] theorem accept_algl : (State.accept s v).algl = s.algl := rfl
@[simp] theorem accept_hmacm : (State.accept s v).hmacm = s.hmacm := rfl
@[simp] theorem accept_err : (State.accept s v).err = .none := rfl
@[simp] theorem accept_ovr : (State.accept s v).ovr = s.ovr := rfl
@[simp] theorem accept_busy : (State.accept s v).busy = true := rfl
@[simp] theorem accept_rst : (State.accept s v).rst = s.rst := rfl
@[simp] theorem accept_base : (State.accept s v).base = s.base := rfl
@[simp] theorem accept_slack : (State.accept s v).slack = Config.latency s.draws { s with pend := v }.contents := rfl
@[simp] theorem accept_draws : (State.accept s v).draws = s.draws + 1 := rfl
@[simp] theorem accept_inbox : (State.accept s v).inbox = s.inbox := rfl
@[simp] theorem accept_reply : (State.accept s v).reply = s.reply := rfl
end accept_fields

section placeCommand_fields
variable (s : State) (v : Word)
@[simp] theorem placeCommand_h : (State.placeCommand s v).h = s.h := rfl
@[simp] theorem placeCommand_blk : (State.placeCommand s v).blk = s.blk := rfl
@[simp] theorem placeCommand_keyBuf : (State.placeCommand s v).keyBuf = s.keyBuf := rfl
@[simp] theorem placeCommand_kblk : (State.placeCommand s v).kblk = s.kblk := rfl
@[simp] theorem placeCommand_pend : (State.placeCommand s v).pend = v := rfl
@[simp] theorem placeCommand_count : (State.placeCommand s v).count = s.count := rfl
@[simp] theorem placeCommand_phase : (State.placeCommand s v).phase = s.phase := rfl
@[simp] theorem placeCommand_algl : (State.placeCommand s v).algl = s.algl := rfl
@[simp] theorem placeCommand_hmacm : (State.placeCommand s v).hmacm = s.hmacm := rfl
@[simp] theorem placeCommand_err : (State.placeCommand s v).err = .none := rfl
@[simp] theorem placeCommand_ovr : (State.placeCommand s v).ovr = s.ovr := rfl
@[simp] theorem placeCommand_busy : (State.placeCommand s v).busy = true := rfl
@[simp] theorem placeCommand_rst : (State.placeCommand s v).rst = false := rfl
@[simp] theorem placeCommand_base : (State.placeCommand s v).base = s.base := rfl
@[simp] theorem placeCommand_slack : (State.placeCommand s v).slack = 0 := rfl
@[simp] theorem placeCommand_draws : (State.placeCommand s v).draws = s.draws := rfl
@[simp] theorem placeCommand_inbox : (State.placeCommand s v).inbox = s.inbox := rfl
@[simp] theorem placeCommand_reply : (State.placeCommand s v).reply = s.reply := rfl
end placeCommand_fields

section dropWrite_fields
variable (s : State)
@[simp] theorem dropWrite_h : (State.dropWrite s).h = s.h := rfl
@[simp] theorem dropWrite_blk : (State.dropWrite s).blk = s.blk := rfl
@[simp] theorem dropWrite_keyBuf : (State.dropWrite s).keyBuf = s.keyBuf := rfl
@[simp] theorem dropWrite_kblk : (State.dropWrite s).kblk = s.kblk := rfl
@[simp] theorem dropWrite_pend : (State.dropWrite s).pend = s.pend := rfl
@[simp] theorem dropWrite_count : (State.dropWrite s).count = s.count := rfl
@[simp] theorem dropWrite_phase : (State.dropWrite s).phase = s.phase := rfl
@[simp] theorem dropWrite_algl : (State.dropWrite s).algl = s.algl := rfl
@[simp] theorem dropWrite_hmacm : (State.dropWrite s).hmacm = s.hmacm := rfl
@[simp] theorem dropWrite_err : (State.dropWrite s).err = s.err := rfl
@[simp] theorem dropWrite_ovr : (State.dropWrite s).ovr = true := rfl
@[simp] theorem dropWrite_busy : (State.dropWrite s).busy = s.busy := rfl
@[simp] theorem dropWrite_rst : (State.dropWrite s).rst = s.rst := rfl
@[simp] theorem dropWrite_base : (State.dropWrite s).base = s.base := rfl
@[simp] theorem dropWrite_slack : (State.dropWrite s).slack = s.slack := rfl
@[simp] theorem dropWrite_draws : (State.dropWrite s).draws = s.draws := rfl
@[simp] theorem dropWrite_inbox : (State.dropWrite s).inbox = s.inbox := rfl
@[simp] theorem dropWrite_reply : (State.dropWrite s).reply = s.reply := rfl
end dropWrite_fields

section turn_fields
variable (s : State) (rest : List HostOp) (answer : Option Word)
@[simp] theorem turn_h : (State.turn s rest answer).h = s.h := rfl
@[simp] theorem turn_blk : (State.turn s rest answer).blk = s.blk := rfl
@[simp] theorem turn_keyBuf : (State.turn s rest answer).keyBuf = s.keyBuf := rfl
@[simp] theorem turn_kblk : (State.turn s rest answer).kblk = s.kblk := rfl
@[simp] theorem turn_pend : (State.turn s rest answer).pend = s.pend := rfl
@[simp] theorem turn_count : (State.turn s rest answer).count = s.count := rfl
@[simp] theorem turn_phase : (State.turn s rest answer).phase = s.phase := rfl
@[simp] theorem turn_algl : (State.turn s rest answer).algl = s.algl := rfl
@[simp] theorem turn_hmacm : (State.turn s rest answer).hmacm = s.hmacm := rfl
@[simp] theorem turn_err : (State.turn s rest answer).err = s.err := rfl
@[simp] theorem turn_ovr : (State.turn s rest answer).ovr = s.ovr := rfl
@[simp] theorem turn_busy : (State.turn s rest answer).busy = s.busy := rfl
@[simp] theorem turn_rst : (State.turn s rest answer).rst = s.rst := rfl
@[simp] theorem turn_base : (State.turn s rest answer).base = s.base := rfl
@[simp] theorem turn_slack : (State.turn s rest answer).slack = s.slack - 1 := rfl
@[simp] theorem turn_draws : (State.turn s rest answer).draws = s.draws := rfl
@[simp] theorem turn_inbox : (State.turn s rest answer).inbox = rest := rfl
@[simp] theorem turn_reply : (State.turn s rest answer).reply = answer := rfl
end turn_fields

section leaveReset_fields
variable (s : State) (rest : List HostOp)
@[simp] theorem leaveReset_h : (State.leaveReset s rest).h = State.reset.h := rfl
@[simp] theorem leaveReset_blk : (State.leaveReset s rest).blk = State.reset.blk := rfl
@[simp] theorem leaveReset_keyBuf : (State.leaveReset s rest).keyBuf = State.reset.keyBuf := rfl
@[simp] theorem leaveReset_kblk : (State.leaveReset s rest).kblk = State.reset.kblk := rfl
@[simp] theorem leaveReset_pend : (State.leaveReset s rest).pend = State.reset.pend := rfl
@[simp] theorem leaveReset_count : (State.leaveReset s rest).count = State.reset.count := rfl
@[simp] theorem leaveReset_phase : (State.leaveReset s rest).phase = State.reset.phase := rfl
@[simp] theorem leaveReset_algl : (State.leaveReset s rest).algl = State.reset.algl := rfl
@[simp] theorem leaveReset_hmacm : (State.leaveReset s rest).hmacm = State.reset.hmacm := rfl
@[simp] theorem leaveReset_err : (State.leaveReset s rest).err = State.reset.err := rfl
@[simp] theorem leaveReset_ovr : (State.leaveReset s rest).ovr = State.reset.ovr := rfl
@[simp] theorem leaveReset_busy : (State.leaveReset s rest).busy = State.reset.busy := rfl
@[simp] theorem leaveReset_rst : (State.leaveReset s rest).rst = State.reset.rst := rfl
@[simp] theorem leaveReset_base : (State.leaveReset s rest).base = s.base := rfl
@[simp] theorem leaveReset_slack : (State.leaveReset s rest).slack = State.reset.slack := rfl
@[simp] theorem leaveReset_draws : (State.leaveReset s rest).draws = s.draws := rfl
@[simp] theorem leaveReset_inbox : (State.leaveReset s rest).inbox = rest := rfl
@[simp] theorem leaveReset_reply : (State.leaveReset s rest).reply = State.reset.reply := rfl
end leaveReset_fields

section initEffect_fields
variable (alg : Alg) (s : State)
@[simp] theorem initEffect_h : (initEffect alg s).h = ivOf alg := rfl
@[simp] theorem initEffect_blk : (initEffect alg s).blk = s.blk := rfl
@[simp] theorem initEffect_keyBuf : (initEffect alg s).keyBuf = s.keyBuf := rfl
@[simp] theorem initEffect_kblk : (initEffect alg s).kblk = s.kblk := rfl
@[simp] theorem initEffect_pend : (initEffect alg s).pend = s.pend := rfl
@[simp] theorem initEffect_count : (initEffect alg s).count = 0 := rfl
@[simp] theorem initEffect_phase : (initEffect alg s).phase = .accumulating := rfl
@[simp] theorem initEffect_algl : (initEffect alg s).algl = alg := rfl
@[simp] theorem initEffect_hmacm : (initEffect alg s).hmacm = false := rfl
@[simp] theorem initEffect_err : (initEffect alg s).err = s.err := rfl
@[simp] theorem initEffect_ovr : (initEffect alg s).ovr = s.ovr := rfl
@[simp] theorem initEffect_busy : (initEffect alg s).busy = s.busy := rfl
@[simp] theorem initEffect_rst : (initEffect alg s).rst = s.rst := rfl
@[simp] theorem initEffect_base : (initEffect alg s).base = s.base := rfl
@[simp] theorem initEffect_slack : (initEffect alg s).slack = s.slack := rfl
@[simp] theorem initEffect_draws : (initEffect alg s).draws = s.draws := rfl
@[simp] theorem initEffect_inbox : (initEffect alg s).inbox = s.inbox := rfl
@[simp] theorem initEffect_reply : (initEffect alg s).reply = s.reply := rfl
end initEffect_fields

section blockEffect_fields
variable (s : State)
@[simp] theorem blockEffect_h : (blockEffect s).h = compress s.algl s.h (blockOperand s) := rfl
@[simp] theorem blockEffect_blk : (blockEffect s).blk = freeBlock s.draws s.contents := rfl
@[simp] theorem blockEffect_keyBuf : (blockEffect s).keyBuf = s.keyBuf := rfl
@[simp] theorem blockEffect_kblk : (blockEffect s).kblk = s.kblk := rfl
@[simp] theorem blockEffect_pend : (blockEffect s).pend = s.pend := rfl
@[simp] theorem blockEffect_count : (blockEffect s).count = s.count + 64 := rfl
@[simp] theorem blockEffect_phase : (blockEffect s).phase = s.phase := rfl
@[simp] theorem blockEffect_algl : (blockEffect s).algl = s.algl := rfl
@[simp] theorem blockEffect_hmacm : (blockEffect s).hmacm = s.hmacm := rfl
@[simp] theorem blockEffect_err : (blockEffect s).err = s.err := rfl
@[simp] theorem blockEffect_ovr : (blockEffect s).ovr = s.ovr := rfl
@[simp] theorem blockEffect_busy : (blockEffect s).busy = s.busy := rfl
@[simp] theorem blockEffect_rst : (blockEffect s).rst = s.rst := rfl
@[simp] theorem blockEffect_base : (blockEffect s).base = s.base := rfl
@[simp] theorem blockEffect_slack : (blockEffect s).slack = s.slack := rfl
@[simp] theorem blockEffect_draws : (blockEffect s).draws = s.draws + 1 := rfl
@[simp] theorem blockEffect_inbox : (blockEffect s).inbox = s.inbox := rfl
@[simp] theorem blockEffect_reply : (blockEffect s).reply = s.reply := rfl
end blockEffect_fields

section finalEffect_fields
variable (n : Nat) (s : State)
@[simp] theorem finalEffect_h : (finalEffect n s).h = finalDigest n s := rfl
@[simp] theorem finalEffect_blk : (finalEffect n s).blk = freeBlock s.draws s.contents := rfl
@[simp] theorem finalEffect_keyBuf : (finalEffect n s).keyBuf = s.keyBuf := rfl
@[simp] theorem finalEffect_kblk : (finalEffect n s).kblk = s.kblk := rfl
@[simp] theorem finalEffect_pend : (finalEffect n s).pend = s.pend := rfl
@[simp] theorem finalEffect_count : (finalEffect n s).count = BitVec.ofNat 61 (finalLength n s) := rfl
@[simp] theorem finalEffect_phase : (finalEffect n s).phase = .finalized := rfl
@[simp] theorem finalEffect_algl : (finalEffect n s).algl = s.algl := rfl
@[simp] theorem finalEffect_hmacm : (finalEffect n s).hmacm = s.hmacm := rfl
@[simp] theorem finalEffect_err : (finalEffect n s).err = s.err := rfl
@[simp] theorem finalEffect_ovr : (finalEffect n s).ovr = s.ovr := rfl
@[simp] theorem finalEffect_busy : (finalEffect n s).busy = s.busy := rfl
@[simp] theorem finalEffect_rst : (finalEffect n s).rst = s.rst := rfl
@[simp] theorem finalEffect_base : (finalEffect n s).base = s.base := rfl
@[simp] theorem finalEffect_slack : (finalEffect n s).slack = s.slack := rfl
@[simp] theorem finalEffect_draws : (finalEffect n s).draws = s.draws + 1 := rfl
@[simp] theorem finalEffect_inbox : (finalEffect n s).inbox = s.inbox := rfl
@[simp] theorem finalEffect_reply : (finalEffect n s).reply = s.reply := rfl
end finalEffect_fields

section hmacInitEffect_fields
variable (alg : Alg) (k : Nat) (s : State)
@[simp] theorem hmacInitEffect_h : (hmacInitEffect alg k s).h = compress alg (ivOf alg) (ipad (keyBlock (keyOperand k s))) := rfl
@[simp] theorem hmacInitEffect_blk : (hmacInitEffect alg k s).blk = freeBlock s.draws s.contents := rfl
@[simp] theorem hmacInitEffect_keyBuf : (hmacInitEffect alg k s).keyBuf = s.keyBuf := rfl
@[simp] theorem hmacInitEffect_kblk : (hmacInitEffect alg k s).kblk = keyBlock (keyOperand k s) := rfl
@[simp] theorem hmacInitEffect_pend : (hmacInitEffect alg k s).pend = s.pend := rfl
@[simp] theorem hmacInitEffect_count : (hmacInitEffect alg k s).count = 64 := rfl
@[simp] theorem hmacInitEffect_phase : (hmacInitEffect alg k s).phase = .accumulating := rfl
@[simp] theorem hmacInitEffect_algl : (hmacInitEffect alg k s).algl = alg := rfl
@[simp] theorem hmacInitEffect_hmacm : (hmacInitEffect alg k s).hmacm = true := rfl
@[simp] theorem hmacInitEffect_err : (hmacInitEffect alg k s).err = s.err := rfl
@[simp] theorem hmacInitEffect_ovr : (hmacInitEffect alg k s).ovr = s.ovr := rfl
@[simp] theorem hmacInitEffect_busy : (hmacInitEffect alg k s).busy = s.busy := rfl
@[simp] theorem hmacInitEffect_rst : (hmacInitEffect alg k s).rst = s.rst := rfl
@[simp] theorem hmacInitEffect_base : (hmacInitEffect alg k s).base = s.base := rfl
@[simp] theorem hmacInitEffect_slack : (hmacInitEffect alg k s).slack = s.slack := rfl
@[simp] theorem hmacInitEffect_draws : (hmacInitEffect alg k s).draws = s.draws + 1 := rfl
@[simp] theorem hmacInitEffect_inbox : (hmacInitEffect alg k s).inbox = s.inbox := rfl
@[simp] theorem hmacInitEffect_reply : (hmacInitEffect alg k s).reply = s.reply := rfl
end hmacInitEffect_fields

end Sys2Proof.Machine
end

