-- ==== Sys2Proof/Laws/Commands.lean ====
section
/-! SUPPORT. What a command can do, said once: each check as one condition, each meaning as one next state, and the cases of
`exec`. -/

namespace Sys2Proof.Machine

open Sys2Proof

theorem complete_eq (code : ErrCode) (effect s : State) :
    complete code effect s = .next (if code = .none then effect.finish else s.raise code) := by
  cases code <;> rfl

theorem check_init (alg : Nat) (s : State) :
    check 0x1 alg 0 s = if 2 ≤ alg then .unsupportedAlgorithm else .none := by
  simp [check]

theorem check_block (s : State) :
    check 0x2 0 0 s =
      if s.phase ≠ .accumulating then .sequence
      else if 2 ^ 61 ≤ s.count.toNat + 64 then .lengthOverflow else .none := by
  simp [check]

theorem check_final (n : Nat) (s : State) :
    check 0x3 0 n s =
      if 63 < n then .invalidArgument else if s.phase ≠ .accumulating then .sequence else .none := by
  simp [check]

theorem check_hmacInit (alg k : Nat) (s : State) :
    check 0x4 alg k s =
      if 2 ≤ alg then .unsupportedAlgorithm else if 64 < k then .keyLengthExceeded else .none := by
  simp [check]

/-- What a command that ends without error has done to the state, with the conditions it passed. -/
inductive Completes (s : State) : Instr → State → Prop where
  | init (alg : Nat) (ha : alg < 2) : Completes s (.init alg) (initEffect (Alg.ofField alg) s).finish
  | block (hp : s.phase = .accumulating) (hc : s.count.toNat + 64 < 2 ^ 61) :
      Completes s .block (blockEffect s).finish
  | final (n : Nat) (hn : n ≤ 63) (hp : s.phase = .accumulating) :
      Completes s (.final n) (finalEffect n s).finish
  | hmacInit (alg k : Nat) (ha : alg < 2) (hk : k ≤ 64) :
      Completes s (.hmacInit alg k) (hmacInitEffect (Alg.ofField alg) k s).finish

/-- Every command answers a next state: it has raised an error, or completed. -/
theorem exec_cases (i : Instr) (s : State) :
    (∃ c, c ≠ .none ∧ exec i s = .next (s.raise c)) ∨ (∃ t, exec i s = .next t ∧ Completes s i t) := by
  cases i with
  | init alg =>
    simp only [exec, execInit, complete_eq, check_init]
    by_cases ha : 2 ≤ alg
    · exact .inl ⟨.unsupportedAlgorithm, by simp, by simp [ha]⟩
    · exact .inr ⟨_, by simp [ha], .init alg (by omega)⟩
  | block =>
    simp only [exec, execBlock, complete_eq, check_block]
    by_cases hp : s.phase = .accumulating
    · by_cases hc : 2 ^ 61 ≤ s.count.toNat + 64
      · exact .inl ⟨.lengthOverflow, by simp, by simp only [hp, hc]; simp⟩
      · exact .inr ⟨_, by simp only [hp, hc]; simp, .block hp (by omega)⟩
    · exact .inl ⟨.sequence, by simp, by simp [hp]⟩
  | final n =>
    simp only [exec, execFinal, complete_eq, check_final]
    by_cases hn : 63 < n
    · exact .inl ⟨.invalidArgument, by simp, by simp [hn]⟩
    · by_cases hp : s.phase = .accumulating
      · exact .inr ⟨_, by simp [hn, hp], .final n (by omega) hp⟩
      · exact .inl ⟨.sequence, by simp, by simp [hn, hp]⟩
  | hmacInit alg k =>
    simp only [exec, execHmacInit, complete_eq, check_hmacInit]
    by_cases ha : 2 ≤ alg
    · exact .inl ⟨.unsupportedAlgorithm, by simp, by simp [ha]⟩
    · by_cases hk : 64 < k
      · exact .inl ⟨.keyLengthExceeded, by simp, by simp [ha, hk]⟩
      · exact .inr ⟨_, by simp [ha, hk], .hmacInit alg k (by omega) (by omega)⟩

/-- The inversion of `exec`: a next state is the error's or the completed command's. -/
theorem exec_next {i : Instr} {s t : State} (h : exec i s = .next t) :
    (∃ c, c ≠ .none ∧ t = s.raise c) ∨ Completes s i t := by
  rcases exec_cases i s with ⟨c, hc, e⟩ | ⟨u, e, hu⟩
  · rw [e] at h; injection h with h; exact .inl ⟨c, hc, h.symm⟩
  · rw [e] at h; injection h with h; exact .inr (h ▸ hu)

/-- A command whose conditions hold completes. -/
theorem exec_of_completes {i : Instr} {s t : State} (h : Completes s i t) : exec i s = .next t := by
  cases h with
  | init alg ha => simp [exec, execInit, complete_eq, check_init, Nat.not_le.2 ha]
  | block hp hc => simp only [exec, execBlock, complete_eq, check_block, hp, Nat.not_le.2 hc]; simp
  | final n hn hp => simp [exec, execFinal, complete_eq, check_final, hp, Nat.not_lt.2 hn]
  | hmacInit alg k ha hk => simp [exec, execHmacInit, complete_eq, check_hmacInit, Nat.not_le.2 ha, Nat.not_lt.2 hk]

theorem Completes.err {i : Instr} {s t : State} (h : Completes s i t) : t.err = .none := by
  cases h <;> rfl

theorem Completes.busy {i : Instr} {s t : State} (h : Completes s i t) : t.busy = false := by
  cases h <;> rfl

end Sys2Proof.Machine
end

