-- ==== Sys2Proof/Laws/Encoding.lean ====
section
/-! SUPPORT. The fields of a command word, what the decoder answers, and well-formedness as arithmetic. -/

namespace Sys2Proof

@[simp] theorem wellFormed_init {alg : Nat} : WellFormed (.init alg) ↔ alg < 4 := by
  simp [WellFormed, Instr.wellFormed, algFits]

@[simp] theorem wellFormed_block : WellFormed .block ↔ True := by
  simp [WellFormed, Instr.wellFormed]

@[simp] theorem wellFormed_final {len : Nat} : WellFormed (.final len) ↔ len < 128 := by
  simp [WellFormed, Instr.wellFormed, lenFits]

@[simp] theorem wellFormed_hmacInit {alg len : Nat} : WellFormed (.hmacInit alg len) ↔ alg < 4 ∧ len < 128 := by
  simp [WellFormed, Instr.wellFormed, algFits, lenFits]

theorem opField_lt (w : Word) : opField w < 16 := (w.extractLsb' 0 4).isLt

theorem algField_lt (w : Word) : algField w < 4 := (w.extractLsb' 4 2).isLt

theorem lenField_lt (w : Word) : lenField w < 128 := (w.extractLsb' 8 7).isLt

/-- Each field of a command word is read back as it was written. -/
theorem fields_commandWord {op alg len : Nat} (hop : op < 16) (halg : alg < 4) (hlen : len < 128) :
    opField (commandWord op alg len) = op ∧ algField (commandWord op alg len) = alg ∧
      lenField (commandWord op alg len) = len := by
  simp only [opField, algField, lenField, commandWord, BitVec.extractLsb'_toNat, BitVec.toNat_ofNat,
    Nat.shiftRight_eq_div_pow]
  omega

/-- The command a word decodes to, by its opcode. -/
theorem decode_cases {w : Word} {i : Instr} (h : decode w = .ok i) :
    (opField w = 1 ∧ i = .init (algField w)) ∨ (opField w = 2 ∧ i = .block) ∨
      (opField w = 3 ∧ i = .final (lenField w)) ∨ (opField w = 4 ∧ i = .hmacInit (algField w) (lenField w)) := by
  unfold decode at h
  split at h <;> simp_all

/-- A reserved opcode decodes to its own rejection. -/
theorem decode_reserved {w : Word} (h : opField w = 0 ∨ 5 ≤ opField w) :
    decode w = .error (.illegalOpcode (opField w)) := by
  unfold decode
  split <;> first | omega | rfl

end Sys2Proof
end

