-- ==== Sys2Proof/Laws/Message.lean ====
section
/-! SUPPORT. What issuing a command and loading a buffer leave in each field, one lemma a field, and a command performed to its end. -/

namespace Sys2Proof.Machine

open Sys2Proof

section issue_fields
variable (i : Instr) (s : State)
@[simp] theorem issue_h : (issue i s).h = s.h := rfl
@[simp] theorem issue_blk : (issue i s).blk = s.blk := rfl
@[simp] theorem issue_keyBuf : (issue i s).keyBuf = s.keyBuf := rfl
@[simp] theorem issue_kblk : (issue i s).kblk = s.kblk := rfl
@[simp] theorem issue_pend : (issue i s).pend = encode i := rfl
@[simp] theorem issue_count : (issue i s).count = s.count := rfl
@[simp] theorem issue_phase : (issue i s).phase = s.phase := rfl
@[simp] theorem issue_algl : (issue i s).algl = s.algl := rfl
@[simp] theorem issue_hmacm : (issue i s).hmacm = s.hmacm := rfl
@[simp] theorem issue_err : (issue i s).err = .none := rfl
@[simp] theorem issue_ovr : (issue i s).ovr = s.ovr := rfl
@[simp] theorem issue_busy : (issue i s).busy = true := rfl
@[simp] theorem issue_rst : (issue i s).rst = s.rst := rfl
@[simp] theorem issue_base : (issue i s).base = s.base := rfl
@[simp] theorem issue_slack : (issue i s).slack = s.slack := rfl
@[simp] theorem issue_draws : (issue i s).draws = s.draws := rfl
@[simp] theorem issue_inbox : (issue i s).inbox = s.inbox := rfl
@[simp] theorem issue_reply : (issue i s).reply = s.reply := rfl
end issue_fields

section loadBlk_fields
variable (p : List Byte) (s : State)
@[simp] theorem loadBlk_h : (loadBlk p s).h = s.h := by simp only [loadBlk]
@[simp] theorem loadBlk_blk : (loadBlk p s).blk = zeroFill p := by simp only [loadBlk]
@[simp] theorem loadBlk_keyBuf : (loadBlk p s).keyBuf = s.keyBuf := by simp only [loadBlk]
@[simp] theorem loadBlk_kblk : (loadBlk p s).kblk = s.kblk := by simp only [loadBlk]
@[simp] theorem loadBlk_pend : (loadBlk p s).pend = s.pend := by simp only [loadBlk]
@[simp] theorem loadBlk_count : (loadBlk p s).count = s.count := by simp only [loadBlk]
@[simp] theorem loadBlk_phase : (loadBlk p s).phase = s.phase := by simp only [loadBlk]
@[simp] theorem loadBlk_algl : (loadBlk p s).algl = s.algl := by simp only [loadBlk]
@[simp] theorem loadBlk_hmacm : (loadBlk p s).hmacm = s.hmacm := by simp only [loadBlk]
@[simp] theorem loadBlk_err : (loadBlk p s).err = s.err := by simp only [loadBlk]
@[simp] theorem loadBlk_ovr : (loadBlk p s).ovr = s.ovr := by simp only [loadBlk]
@[simp] theorem loadBlk_busy : (loadBlk p s).busy = s.busy := by simp only [loadBlk]
@[simp] theorem loadBlk_rst : (loadBlk p s).rst = s.rst := by simp only [loadBlk]
@[simp] theorem loadBlk_base : (loadBlk p s).base = s.base := by simp only [loadBlk]
@[simp] theorem loadBlk_slack : (loadBlk p s).slack = s.slack := by simp only [loadBlk]
@[simp] theorem loadBlk_draws : (loadBlk p s).draws = s.draws := by simp only [loadBlk]
@[simp] theorem loadBlk_inbox : (loadBlk p s).inbox = s.inbox := by simp only [loadBlk]
@[simp] theorem loadBlk_reply : (loadBlk p s).reply = s.reply := by simp only [loadBlk]
end loadBlk_fields

section loadKey_fields
variable (p : List Byte) (s : State)
@[simp] theorem loadKey_h : (loadKey p s).h = s.h := by simp only [loadKey]
@[simp] theorem loadKey_blk : (loadKey p s).blk = s.blk := by simp only [loadKey]
@[simp] theorem loadKey_keyBuf : (loadKey p s).keyBuf = zeroFill p := by simp only [loadKey]
@[simp] theorem loadKey_kblk : (loadKey p s).kblk = s.kblk := by simp only [loadKey]
@[simp] theorem loadKey_pend : (loadKey p s).pend = s.pend := by simp only [loadKey]
@[simp] theorem loadKey_count : (loadKey p s).count = s.count := by simp only [loadKey]
@[simp] theorem loadKey_phase : (loadKey p s).phase = s.phase := by simp only [loadKey]
@[simp] theorem loadKey_algl : (loadKey p s).algl = s.algl := by simp only [loadKey]
@[simp] theorem loadKey_hmacm : (loadKey p s).hmacm = s.hmacm := by simp only [loadKey]
@[simp] theorem loadKey_err : (loadKey p s).err = s.err := by simp only [loadKey]
@[simp] theorem loadKey_ovr : (loadKey p s).ovr = s.ovr := by simp only [loadKey]
@[simp] theorem loadKey_busy : (loadKey p s).busy = s.busy := by simp only [loadKey]
@[simp] theorem loadKey_rst : (loadKey p s).rst = s.rst := by simp only [loadKey]
@[simp] theorem loadKey_base : (loadKey p s).base = s.base := by simp only [loadKey]
@[simp] theorem loadKey_slack : (loadKey p s).slack = s.slack := by simp only [loadKey]
@[simp] theorem loadKey_draws : (loadKey p s).draws = s.draws := by simp only [loadKey]
@[simp] theorem loadKey_inbox : (loadKey p s).inbox = s.inbox := by simp only [loadKey]
@[simp] theorem loadKey_reply : (loadKey p s).reply = s.reply := by simp only [loadKey]
end loadKey_fields

@[simp] theorem andThen_next (s : State) (f : State → Host.Outcome State Fault Refusal) : andThen (.next s) f = f s := rfl

/-- A command whose conditions hold once it is issued is performed to its end. -/
theorem perform_of_completes {i : Instr} {s t : State} (h : Completes (issue i s) i t) : perform i s = .next t :=
  exec_of_completes h

@[simp] theorem ofField_code (alg : Alg) : Alg.ofField alg.code = alg := by cases alg <;> rfl

theorem code_lt (alg : Alg) : alg.code < 2 := by cases alg <;> decide

end Sys2Proof.Machine
end

