-- ==== Sys2Proof/Laws/PerInstr.lean ====
section
/-! SUPPORT. Statements made for every instruction, one lemma a constructor. -/

namespace Sys2Proof.Laws

open Sys2Proof

/-- The word of a well-formed command is 0 in the bits no opcode reads, 7:6 and 31:15 (30_encoding.md R85). -/
def EncodeIgnoredBits.Statement (i : Instr) : Prop :=
  WellFormed i → (encode i).extractLsb' 6 2 = 0#2 ∧ (encode i).extractLsb' 15 17 = 0#17

theorem commandWord_ignoredBits {op alg len : Nat} (ho : op < 16) (ha : alg < 4) (hl : len < 128) :
    (commandWord op alg len).extractLsb' 6 2 = 0#2 ∧ (commandWord op alg len).extractLsb' 15 17 = 0#17 := by
  constructor
  all_goals
    apply BitVec.eq_of_toNat_eq
    simp only [commandWord, BitVec.extractLsb'_toNat, BitVec.toNat_ofNat, Nat.shiftRight_eq_div_pow]
    omega

theorem EncodeIgnoredBits.init (alg : Nat) : EncodeIgnoredBits.Statement (.init alg) := fun h =>
  commandWord_ignoredBits (by omega) (wellFormed_init.1 h) (by omega)

theorem EncodeIgnoredBits.block : EncodeIgnoredBits.Statement .block := fun _ =>
  commandWord_ignoredBits (by omega) (by omega) (by omega)

theorem EncodeIgnoredBits.final (len : Nat) : EncodeIgnoredBits.Statement (.final len) := fun h =>
  commandWord_ignoredBits (by omega) (by omega) (wellFormed_final.1 h)

theorem EncodeIgnoredBits.hmacInit (alg len : Nat) : EncodeIgnoredBits.Statement (.hmacInit alg len) := fun h =>
  commandWord_ignoredBits (by omega) (wellFormed_hmacInit.1 h).1 (wellFormed_hmacInit.1 h).2

end Sys2Proof.Laws
end

