-- ==== Sys2Proof/Laws/Step.lean ====
section
/-! SUPPORT. What a step can do, said once: the engine's step or one of the named turns of the host. -/

namespace Sys2Proof.Machine

open Sys2Proof

theorem permitted_iff {off width : Nat} : permitted off width = true ↔ width = 4 ∧ off % 4 = 0 ∧ off < 0x100 := by
  simp [permitted, and_assoc]

theorem engineTurn_iff {s : State} : s.engineTurn = true ↔ s.busy = true ∧ s.slack = 0 ∧ s.rst = false := by
  simp [State.engineTurn, and_assoc]

/-- What a host write does to the state: nothing, an overrun, an acceptance, a buffer write, or OVR cleared. -/
inductive Written (s : State) (v : Word) : Reg → State → Prop where
  | ignored (r : Reg) (hr : r ≠ .cmd ∧ (∀ i, r ≠ .block i) ∧ (∀ i, r ≠ .key i) ∧ (r = .status → v.getLsbD 1 = false)) :
      Written s v r s
  | dropped (r : Reg) (hb : s.busy = true) (hr : r = .cmd ∨ (∃ i, r = .block i) ∨ ∃ i, r = .key i) :
      Written s v r s.dropWrite
  | accepted (hb : s.busy = false) : Written s v .cmd (s.accept v)
  | block (i : Fin 16) (hb : s.busy = false) : Written s v (.block i) { s with blk := bufWrite s.blk i v }
  | key (i : Fin 16) (hb : s.busy = false) : Written s v (.key i) { s with keyBuf := bufWrite s.keyBuf i v }
  | cleared (hv : v.getLsbD 1 = true) : Written s v .status { s with ovr := false }

theorem hostWrite_written (s : State) (r : Reg) (v : Word) : Written s v r (hostWrite s r v) := by
  cases r with
  | id => exact .ignored _ (by simp)
  | cmd =>
    cases hb : s.busy with
    | false => simpa [hostWrite, hb] using Written.accepted hb
    | true => simpa [hostWrite, hb] using Written.dropped (v := v) .cmd hb (by simp)
  | status =>
    cases hv : v.getLsbD 1 with
    | false =>
      simp only [hostWrite, hv, Bool.false_eq_true, if_false]
      exact .ignored .status ⟨by simp, by simp, by simp, fun _ => hv⟩
    | true =>
      simp only [hostWrite, hv, if_true]
      exact .cleared hv
  | countLo => exact .ignored _ (by simp)
  | countHi => exact .ignored _ (by simp)
  | block i =>
    cases hb : s.busy with
    | false => simpa [hostWrite, hb] using Written.block i hb
    | true => simpa [hostWrite, hb] using Written.dropped (v := v) (.block i) hb (by simp)
  | key i =>
    cases hb : s.busy with
    | false => simpa [hostWrite, hb] using Written.key i hb
    | true => simpa [hostWrite, hb] using Written.dropped (v := v) (.key i) hb (by simp)
  | digest i => exact .ignored _ (by simp)
  | reserved => exact .ignored _ (by simp)

/-- The host's turn that ends in `t`: which operation was performed, and how. -/
inductive HostStep (s : State) : State → Prop where
  | idle (hq : s.inbox = []) : HostStep s (s.turn [] none)
  | assertReset (rest) (hq : s.inbox = .resetInput true :: rest) : HostStep s { s.turn rest none with rst := true }
  | releaseReset (rest) (hq : s.inbox = .resetInput false :: rest) (hr : s.rst = true) : HostStep s (s.leaveReset rest)
  | resetStaysReleased (rest) (hq : s.inbox = .resetInput false :: rest) (hr : s.rst = false) :
      HostStep s (s.turn rest none)
  | inReset (op rest) (hq : s.inbox = op :: rest) (hop : ∀ b, op ≠ .resetInput b) (hr : s.rst = true) :
      HostStep s (s.turn rest none)
  | read (off rest) (hq : s.inbox = .read off 4 :: rest) (hr : s.rst = false) (ha : off % 4 = 0) (ho : off < 0x100) :
      HostStep s ((hostRead s (regAt off)).2.turn rest (some (hostRead s (regAt off)).1))
  | write (off v rest) (hq : s.inbox = .write off 4 v :: rest) (hr : s.rst = false) (ha : off % 4 = 0)
      (ho : off < 0x100) : HostStep s (hostWrite (s.turn rest none) (regAt off) v)
  | wait (rest) (hq : s.inbox = .wait :: rest) (hr : s.rst = false) : HostStep s (performWait s rest)

theorem hostTurn_next {s t : State} (h : hostTurn s = .next t) : HostStep s t := by
  unfold hostTurn at h
  split at h
  · next hq => injection h with h; exact h ▸ .idle hq
  · next rest hq => injection h with h; exact h ▸ .assertReset rest hq
  · next rest hq =>
    injection h with h
    cases hr : s.rst with
    | false => simp only [hr] at h; exact h ▸ .resetStaysReleased rest hq hr
    | true => simp only [hr, if_true] at h; exact h ▸ .releaseReset rest hq hr
  · next off width rest hq =>
    cases hr : s.rst with
    | true => simp only [hr, if_true] at h; injection h with h; exact h ▸ .inReset _ rest hq (by simp) hr
    | false =>
      simp only [hr, performRead] at h
      cases hp : permitted off width with
      | false => simp [hp] at h
      | true =>
        obtain ⟨rfl, ha, ho⟩ := permitted_iff.1 hp
        simp only [hp, if_true] at h
        injection h with h; exact h ▸ .read off rest hq hr ha ho
  · next off width v rest hq =>
    cases hr : s.rst with
    | true => simp only [hr, if_true] at h; injection h with h; exact h ▸ .inReset _ rest hq (by simp) hr
    | false =>
      simp only [hr, performWrite] at h
      cases hp : permitted off width with
      | false => simp [hp] at h
      | true =>
        obtain ⟨rfl, ha, ho⟩ := permitted_iff.1 hp
        simp only [hp, if_true] at h
        injection h with h; exact h ▸ .write off v rest hq hr ha ho
  · next rest hq =>
    cases hr : s.rst with
    | true => simp only [hr, if_true] at h; injection h with h; exact h ▸ .inReset _ rest hq (by simp) hr
    | false => simp only [hr] at h; injection h with h; exact h ▸ .wait rest hq hr

/-- The engine's step that ends in `t`: an error of the pending command (a reserved opcode among them) or its completion. -/
theorem engineStep_next {s t : State} (h : engineStep s = .next t) :
    (∃ c, c ≠ .none ∧ t = s.raise c) ∨ ∃ i, decode s.pend = .ok i ∧ Completes s i t := by
  unfold engineStep at h
  split at h
  · next i hi =>
    rcases exec_next h with hc | hc
    · exact .inl hc
    · exact .inr ⟨i, hi, hc⟩
  · injection h with h; exact .inl ⟨.illegalCommand, by simp, h.symm⟩

/-- The inversion of `step`: whose turn it was, and what it did. -/
theorem step_next {s t : State} (h : step s = .next t) :
    (s.engineTurn = true ∧ ((∃ c, c ≠ .none ∧ t = s.raise c) ∨ ∃ i, decode s.pend = .ok i ∧ Completes s i t)) ∨
    (s.engineTurn = false ∧ HostStep s t) := by
  unfold step at h
  cases he : s.engineTurn with
  | true => simp only [he, if_true] at h; exact .inl ⟨rfl, engineStep_next h⟩
  | false => simp only [he] at h; exact .inr ⟨rfl, hostTurn_next h⟩

/-- BASE is a parameter: no step moves a core's window. -/
theorem step_base {s t : State} (h : step s = .next t) : t.base = s.base := by
  rcases step_next h with ⟨_, ⟨c, _, rfl⟩ | ⟨i, _, hc⟩⟩ | ⟨_, hs⟩
  · rfl
  · cases hc <;> rfl
  · cases hs with
    | read off rest => simp only [turn_base, hostRead]; split <;> rfl
    | write off v rest =>
      have hw := hostWrite_written (s.turn rest none) (regAt off) v
      generalize hostWrite (s.turn rest none) (regAt off) v = u at hw
      generalize regAt off = r at hw
      cases hw <;> rfl
    | wait rest => unfold performWait; split <;> rfl
    | _ => rfl

section turns

variable {s : State} {rest : List HostOp}

theorem step_engine (he : s.engineTurn = true) : step s = engineStep s := by
  simp [step, he]

theorem step_idle (he : s.engineTurn = false) (hq : s.inbox = []) : step s = .next (s.turn [] none) := by
  simp [step, he, hostTurn, hq]

theorem step_read {off width : Nat} (he : s.engineTurn = false) (hr : s.rst = false)
    (hq : s.inbox = .read off width :: rest) (hp : permitted off width = true) :
    step s = .next ((hostRead s (regAt off)).2.turn rest (some (hostRead s (regAt off)).1)) := by
  simp [step, he, hostTurn, hq, hr, performRead, hp]

theorem step_write {off width : Nat} {v : Word} (he : s.engineTurn = false) (hr : s.rst = false)
    (hq : s.inbox = .write off width v :: rest) (hp : permitted off width = true) :
    step s = .next (hostWrite (s.turn rest none) (regAt off) v) := by
  simp [step, he, hostTurn, hq, hr, performWrite, hp]

theorem step_wait (he : s.engineTurn = false) (hr : s.rst = false) (hq : s.inbox = .wait :: rest) :
    step s = .next (performWait s rest) := by
  simp [step, he, hostTurn, hq, hr]

theorem step_inReset {op : HostOp} (hr : s.rst = true) (hq : s.inbox = op :: rest) (hop : ∀ b, op ≠ .resetInput b) :
    step s = .next (s.turn rest none) := by
  have he : s.engineTurn = false := by simp [State.engineTurn, hr]
  cases op <;> simp_all [step, hostTurn]

theorem step_releaseReset (hr : s.rst = true) (hq : s.inbox = .resetInput false :: rest) :
    step s = .next (s.leaveReset rest) := by
  have he : s.engineTurn = false := by simp [State.engineTurn, hr]
  simp [step, he, hostTurn, hq, hr]

theorem step_assertReset (he : s.engineTurn = false) (hq : s.inbox = .resetInput true :: rest) :
    step s = .next { s.turn rest none with rst := true } := by
  simp [step, he, hostTurn, hq]

end turns

end Sys2Proof.Machine
end

