-- ==== Sys2Proof/Laws/Run.lean ====
section
/-! SUPPORT. Running several steps, and the engine's step among them. -/

namespace Sys2Proof.Machine

open Sys2Proof

@[simp] theorem run_zero (s : State) : run 0 s = .next s := rfl

theorem run_succ {s t : State} (h : step s = .next t) (k : Nat) : run (k + 1) s = run k t := by
  have h' : core.step s = .next t := h
  simp only [run, Host.Core.run, h']
  rfl

theorem run_fault {s : State} {f : Fault} (h : step s = .fault f) (k : Nat) : run (k + 1) s = .fault f := by
  have h' : core.step s = .fault f := h
  simp only [run, Host.Core.run, h']
  rfl

theorem run_refused {s : State} {r : Refusal} (h : step s = .refused r) (k : Nat) : run (k + 1) s = .refused r := by
  have h' : core.step s = .refused r := h
  simp only [run, Host.Core.run, h']
  rfl

theorem run_one {s t : State} (h : step s = .next t) : run 1 s = .next t := by
  rw [run_succ h, run_zero]

/-- Runs are joined end to end. -/
theorem run_add {a : Nat} {s t : State} (h : run a s = .next t) (b : Nat) : run (a + b) s = run b t := by
  induction a generalizing s with
  | zero =>
    rw [run_zero] at h
    injection h with h
    rw [h, Nat.zero_add]
  | succ a ih =>
    rw [Nat.succ_add]
    cases hs : step s with
    | next u => rw [run_succ hs] at h; rw [run_succ hs]; exact ih h
    | fault r => rw [run_fault hs] at h; cases h
    | refused r => rw [run_refused hs] at h; cases h

/-- The engine's step leaves the host side alone. -/
theorem engineStep_hostSide {s t : State} (h : engineStep s = .next t) :
    t.inbox = s.inbox ∧ t.rst = s.rst ∧ t.slack = s.slack ∧ t.reply = s.reply := by
  rcases engineStep_next h with ⟨c, _, rfl⟩ | ⟨i, _, hc⟩
  · simp
  · cases hc <;> simp

end Sys2Proof.Machine
end

