-- ==== Sys2Proof/Laws/Window.lean ====
section
/-! SUPPORT. The register map at each register's offset, and what a permitted access of the host's turn comes to. -/

namespace Sys2Proof.Machine

open Sys2Proof

@[simp] theorem regAt_block (i : Fin 16) : regAt (0x40 + 4 * i.val) = .block i := by
  revert i; decide

@[simp] theorem regAt_key (i : Fin 16) : regAt (0x80 + 4 * i.val) = .key i := by
  revert i; decide

@[simp] theorem regAt_digest (i : Fin 8) : regAt (0xC0 + 4 * i.val) = .digest i := by
  revert i; decide

theorem regAt_reserved {off : Nat} (h : off = 0x0C ∨ (0x18 ≤ off ∧ off < 0x40) ∨ (0xE0 ≤ off ∧ off < 0x100)) :
    regAt off = .reserved := by
  have h1 : ¬(0x40 ≤ off ∧ off < 0x80) := by omega
  have h2 : ¬(0x80 ≤ off ∧ off < 0xC0) := by omega
  have h3 : ¬(0xC0 ≤ off ∧ off < 0xE0) := by omega
  have : off ≠ 0x00 ∧ off ≠ 0x04 ∧ off ≠ 0x08 ∧ off ≠ 0x10 ∧ off ≠ 0x14 := by omega
  simp [regAt, h1, h2, h3, this]

/-- Where the map puts CMD, STATUS and the two buffers, and nowhere else. -/
theorem regAt_cases (off : Nat) :
    (regAt off = .cmd → off = 0x04) ∧ (regAt off = .status → off = 0x08) ∧
      (∀ i, regAt off = .block i → 0x40 ≤ off ∧ off < 0x80) ∧ (∀ i, regAt off = .key i → 0x80 ≤ off ∧ off < 0xC0) := by
  unfold regAt
  repeat' split
  all_goals simp_all

theorem State.SameCore.refl (s : State) : s.SameCore s := by constructor <;> rfl

theorem State.SameCore.trans {s t u : State} (a : s.SameCore t) (b : t.SameCore u) : s.SameCore u :=
  ⟨b.h.trans a.h, b.blk.trans a.blk, b.keyBuf.trans a.keyBuf, b.kblk.trans a.kblk, b.pend.trans a.pend,
    b.count.trans a.count, b.phase.trans a.phase, b.algl.trans a.algl, b.hmacm.trans a.hmacm, b.err.trans a.err,
    b.ovr.trans a.ovr, b.busy.trans a.busy⟩

theorem turn_sameCore (s : State) (rest : List HostOp) (answer : Option Word) : s.SameCore (s.turn rest answer) := by
  constructor <;> rfl

theorem hostRead_cases (s : State) (r : Reg) :
    (hostRead s r).2 = s ∨ (hostRead s r).2 = { s with draws := s.draws + 1 } := by
  unfold hostRead
  split
  · exact .inr rfl
  · exact .inl rfl

/-- A read moves no state element. -/
theorem hostRead_sameCore (s : State) (r : Reg) : s.SameCore (hostRead s r).2 := by
  rcases hostRead_cases s r with h | h <;> rw [h] <;> constructor <;> rfl

/-- What a read returns does not depend on the host's queue. -/
theorem hostRead_queue (s : State) (q : List HostOp) (r : Reg) :
    (hostRead { s with inbox := q } r).1 = (hostRead s r).1 := by
  have e : readReg { s with inbox := q } r = readReg s r := by cases r <;> rfl
  unfold hostRead
  rw [e]
  split <;> rfl

/-- A register that is exact while busy, or any register while idle, reads its value. -/
theorem hostRead_exact {s : State} {r : Reg} (h : s.busy = false ∨ r.exactWhileBusy = true) :
    hostRead s r = (readReg s r, s) := by
  rcases h with h | h <;> simp [hostRead, h]

/-- A permitted read of the host's turn returns what `hostRead` gives, whatever is queued behind it. -/
theorem reads_hostRead {s : State} {off : Nat} (hs : s.HostTurn) (ha : off % 4 = 0) (ho : off < 0x100) :
    s.Reads off (hostRead s (regAt off)).1 := by
  obtain ⟨he, hr⟩ := hs
  intro rest
  rw [← hostRead_queue s (.read off 4 :: rest)]
  refine ⟨_, step_read (s := { s with inbox := .read off 4 :: rest }) he hr rfl (permitted_iff.2 ⟨rfl, ha, ho⟩), rfl,
    rfl, ?_⟩
  exact (State.SameCore.trans (t := { s with inbox := .read off 4 :: rest }) (by constructor <;> rfl)
    ((hostRead_sameCore _ _).trans (turn_sameCore _ _ _)))

/-- A register that reads exactly. -/
theorem reads_exact {s : State} {off : Nat} (hs : s.HostTurn) (ha : off % 4 = 0) (ho : off < 0x100)
    (h : s.busy = false ∨ (regAt off).exactWhileBusy = true) : s.Reads off (readReg s (regAt off)) := by
  have := reads_hostRead hs ha ho
  rwa [hostRead_exact h] at this

/-- No write of the host touches its queue. -/
theorem hostWrite_inbox (s : State) (r : Reg) (v : Word) : (hostWrite s r v).inbox = s.inbox := by
  have h := hostWrite_written s r v
  generalize hostWrite s r v = t at h
  cases h <;> rfl

/-- A permitted write of the host's turn leaves the state elements `hostWrite` leaves. -/
theorem writes_hostWrite {s : State} {off : Nat} {v : Word} {s' : State} (hs : s.HostTurn) (ha : off % 4 = 0)
    (ho : off < 0x100) (h : ∀ rest, s'.SameCore (hostWrite (s.turn rest none) (regAt off) v)) : s.Writes off v s' := by
  obtain ⟨he, hr⟩ := hs
  intro rest
  exact ⟨hostWrite (s.turn rest none) (regAt off) v,
    step_write (s := { s with inbox := .write off 4 v :: rest }) he hr rfl (permitted_iff.2 ⟨rfl, ha, ho⟩),
    hostWrite_inbox _ _ _, h rest⟩

end Sys2Proof.Machine
end

