-- ==== Sys2Proof/Tests/Slice0.lean ====
section
/-! SUPPORT. The model's own tests. Every expected value is the spec's (30_encoding.md R90, the worked examples of the rules,
95_test_vectors.md by its id). Then, for each statement with hypotheses, a witness that meets them. -/

namespace Sys2Proof.Tests

open Sys2Proof Sys2Proof.Machine

/-! ### Small states and readings -/

/-- What `f` reads in the next state; none at a stop. -/
def after {α : Type} (o : Host.Outcome State Fault Refusal) (f : State → α) : Option α :=
  match o with
  | .next t => some (f t)
  | _ => none

/-- A computation of `alg` with `H`, `COUNT` and the block's first bytes as given. -/
def accumulating (alg : Alg) (h : Vector Word 8) (count : BitVec 61) (bytes : List Byte) : State :=
  { State.reset with phase := .accumulating, algl := alg, h := h, count := count, blk := zeroFill bytes }

/-- A finished computation. -/
def finalized : State := { State.reset with phase := .finalized }

/-- A command `w` accepted and `slack` host turns from its step. -/
def running (w : Word) (slack : Nat) : State := { State.reset with pend := w, busy := true, slack := slack }

/-- The reset state with the host's accesses `ops` in store. -/
def hostDoes (ops : List HostOp) : State := { State.reset with inbox := ops }

/-- "abc" padded to one block (41_padding.md R121). -/
def abcBlock : List Byte := [0x61, 0x62, 0x63, 0x80] ++ List.replicate 52 0 ++ [0, 0, 0, 0, 0, 0, 0, 0x18]

/-! ### Well-formed terms: the checks refuse what no command word can express -/

theorem test_wellFormed_refuses_alg_of_init : ¬ WellFormed (.init 4) := by decide

theorem test_wellFormed_refuses_len_of_final : ¬ WellFormed (.final 128) := by decide

theorem test_wellFormed_refuses_alg_of_hmacInit : ¬ WellFormed (.hmacInit 4 0) := by decide

theorem test_wellFormed_refuses_len_of_hmacInit : ¬ WellFormed (.hmacInit 0 128) := by decide

/-! ### Decoding: the words of R90, written out by the fields of R81 -/

/-- `INIT sha256` = 0x00000011: OP 0001 at bit 0, ALG 01 at bit 4. -/
theorem test_decode_init : decode 0b00000000000000000000000000010001 = .ok (.init 1) := by decide

/-- `BLOCK` = 0x00000002. -/
theorem test_decode_block : decode 0b00000000000000000000000000000010 = .ok .block := by decide

/-- `FINAL 43` = 0x00002B03: OP 0011, LEN 0101011 at bit 8. -/
theorem test_decode_final : decode 0b00000000000000000010101100000011 = .ok (.final 43) := by decide

/-- `HMAC_INIT sha256, 20` = 0x00001414: OP 0100, ALG 01 at bit 4, LEN 0010100 at bit 8. -/
theorem test_decode_hmacInit : decode 0b00000000000000000001010000010100 = .ok (.hmacInit 1 20) := by decide

/-- The reserved opcodes (R86). -/
theorem test_decode_reserved : decode 0x00000000 = .error (.illegalOpcode 0) ∧
    decode 0x00000005 = .error (.illegalOpcode 5) ∧ decode 0x0000000F = .error (.illegalOpcode 15) := by decide

/-- The ignored bits (L2-CMD-6, L2-CMD-7). -/
theorem test_decode_ignoredBits : decode 0xFFFF80C1 = .ok (.init 0) ∧ decode 0x00007F11 = .ok (.init 1) := by decide

/-- The host's two entry points: the table's word, and the step that runs it first after reset. -/
theorem test_tableWord : decodeTableWord 32 0x2B03 = some (.final 43) ∧
    after (step (State.reset.withFetchWord 32 0x00000003)) statusWord = some 0x00000050 := by decide

/-! ### Codec and padding -/

/-- L2-COD-1, L2-COD-2, L2-COD-4, L2-COD-5. -/
theorem test_codec : be32Encode 0x01020304 = [1, 2, 3, 4] ∧ be32Decode 0x80 0 0 1 = 0x80000001 ∧
    be64Encode (8 * 56) = [0, 0, 0, 0, 0, 0, 1, 0xc0] ∧
    be64Encode 0xFFFFFFFFFFFFFFF8 = [0xff, 0xff, 0xff, 0xff, 0xff, 0xff, 0xff, 0xf8] := by decide

/-- R104's example. -/
theorem test_serialize :
    serialize #v[0xDA39A3EE, 0x5E6B4B0D, 0x3255BFEF, 0x95601890, 0xAFD80709, 1, 2, 3] 20 =
      [0xda, 0x39, 0xa3, 0xee, 0x5e, 0x6b, 0x4b, 0x0d, 0x32, 0x55, 0xbf, 0xef, 0x95, 0x60, 0x18, 0x90, 0xaf, 0xd8, 0x07,
        0x09] := by decide

/-- L2-PAD-2, and the block counts and marker bytes of L2-PAD-3, 4 and 5. -/
theorem test_pad : pad [0x61, 0x62, 0x63] 3 = [abcBlock] ∧
    (pad (List.replicate 55 0x61) 55).map (fun B => (B.getD 55 0, B.getD 62 0, B.getD 63 0)) = [(0x80, 0x01, 0xb8)] ∧
    (pad (List.replicate 56 0x61) 56).map (fun B => (B.getD 56 0, B.getD 62 0, B.getD 63 0)) =
      [(0x80, 0, 0), (0, 0x01, 0xc0)] ∧
    (pad (List.replicate 63 0x61) 63).map (fun B => (B.getD 63 0, B.getD 62 0)) = [(0x80, 0x61), (0xf8, 0x01)] := by
  decide +kernel

/-! ### SHA-1 and SHA-256 -/

/-- L2-SHA1-1, L2-SHA1-2, L2-SHA1-3. -/
theorem test_sha1_functions : rotl 0x80000001 1 = 0x00000003 ∧ rotl 0x12345678 30 = 0x048D159E ∧
    f1 19 0xFFFF0000 0xFF00FF00 0xF0F0F0F0 = 0xff00f0f0 ∧ f1 20 0xFFFF0000 0xFF00FF00 0xF0F0F0F0 = 0xf00f0ff0 ∧
    f1 40 0xFFFF0000 0xFF00FF00 0xF0F0F0F0 = 0xfff0f000 ∧ f1 60 0xFFFF0000 0xFF00FF00 0xF0F0F0F0 = 0xf00f0ff0 := by
  decide

/-- L2-256-1, L2-256-2, L2-256-3. -/
theorem test_sha256_functions : smallSigma0 0x12345678 = 0xe7fce6ee ∧ smallSigma1 0x12345678 = 0xa1f78649 ∧
    bigSigma0 0x12345678 = 0x66146474 ∧ bigSigma1 0x12345678 = 0x3561abda ∧ smallSigma0 0xFFFFFFFF = 0x1fffffff ∧
    smallSigma1 0xFFFFFFFF = 0x003fffff ∧ ch256 0xFFFF0000 0xFF00FF00 0xF0F0F0F0 = 0xff00f0f0 ∧
    maj256 0xFFFF0000 0xFF00FF00 0xF0F0F0F0 = 0xfff0f000 := by decide

/-- L2-SHA1-4. -/
theorem test_sched1 : (sched1 abcBlock).getD 16 0 = 0xc2c4c700 ∧ (sched1 abcBlock).getD 19 0 = 0x85898e01 ∧
    (sched1 abcBlock).getD 79 0 = 0x822e0879 := by decide +kernel

/-- L2-256-4. -/
theorem test_sched256 : (sched256 abcBlock).getD 17 0 = 0x000f0000 ∧ (sched256 abcBlock).getD 18 0 = 0x7da86405 ∧
    (sched256 abcBlock).getD 63 0 = 0x12b1edeb := by decide +kernel

/-- L2-SHA1-9: all ones in, so that every addition carries. -/
theorem test_compress1 :
    (compress1 #v[0xFFFFFFFF, 0xFFFFFFFF, 0xFFFFFFFF, 0xFFFFFFFF, 0xFFFFFFFF, 5, 6, 7] (List.replicate 64 0xFF)).toList =
      [0x3f48159b, 0x2dce51fa, 0x8a1e930a, 0x02083b68, 0xef70d6e8, 5, 6, 7] := by decide +kernel

/-- L2-256-9. -/
theorem test_compress256 : (compress256 (Vector.replicate 8 0xFFFFFFFF) (List.replicate 64 0xFF)).toList =
    [0x0598127a, 0xaf11706e, 0x77401fff, 0xd730c549, 0x0b84c867, 0xa98c6ca3, 0xd7f3c0f9, 0x06a78b79] := by decide +kernel

/-! ### The commands, one step each -/

/-- L2-CMD-5, L2-CMD-7. -/
theorem test_init : after (exec (.init 0) finalized) (fun t => (t.h.toList, t.count, statusWord t)) =
      some ([0x67452301, 0xEFCDAB89, 0x98BADCFE, 0x10325476, 0xC3D2E1F0, 0, 0, 0], 0, 0x00000100) ∧
    after (exec (.init 1) State.reset) statusWord = some 0x00001100 := by decide

/-- L2-CMD-2, L2-CMD-3. -/
theorem test_init_unsupported : after (exec (.init 2) State.reset) statusWord = some 0x00000020 ∧
    after (exec (.init 3) State.reset) statusWord = some 0x00000020 := by decide

/-- R203's example: the padded block of "abc" as one BLOCK; COUNT is 64 afterwards. -/
theorem test_block : after (exec .block (accumulating .sha1 iv1 0 abcBlock)) (fun t => (t.h.toList, t.count, t.phase)) =
    some ([0xA9993E36, 0x4706816A, 0xBA3E2571, 0x7850C26C, 0x9CD0D89D, 0, 0, 0], 64, .accumulating) := by decide +kernel

/-- L2-CMD-14 (without ALGL); L2-CMD-16 at COUNT = 2^61 − 64; L2-CMD-17 at 2^61 − 128. -/
theorem test_block_errors : after (exec .block finalized) statusWord = some 0x00000250 ∧
    after (exec .block (accumulating .sha1 iv1 0x1FFFFFFFFFFFFFC0 [])) statusWord = some 0x00000160 ∧
    after (exec .block (accumulating .sha1 iv1 0x1FFFFFFFFFFFFF80 [])) (fun t => (statusWord t, t.count)) =
      some (0x00000100, 0x1FFFFFFFFFFFFFC0) := by decide +kernel

/-- L2-HM-1 with the state of L2-HM-11 before FINAL 8: the HMAC-SHA256 of "Hi There" under twenty bytes 0x0b. -/
theorem test_final_hmac :
    after (exec (.final 8)
      { accumulating .sha256
          #v[0x2bb21804, 0x23b95bf9, 0xb4e8258c, 0xfab5e654, 0x11f2921e, 0x4feb78ee, 0x9890e5fe, 0x64b78036] 64
          [0x48, 0x69, 0x20, 0x54, 0x68, 0x65, 0x72, 0x65] with
        hmacm := true, kblk := keyBlock (List.replicate 20 0x0b) }) (fun t => (t.h.toList, t.count, statusWord t)) =
      some ([0xb0344c61, 0xd8db3853, 0x5ca8afce, 0xaf0bf12b, 0x881dc200, 0xc9833da7, 0x26e9376c, 0x2e32cff7], 0x48,
        0x00003200) := by decide +kernel

/-- L2-SHA1-11 for 120 bytes "a" (FINAL 56 after a BLOCK, two padded blocks), L2-CMD-1, L2-CMD-10. -/
theorem test_final :
    after (exec (.final 56) (accumulating .sha1 #v[0xda4968eb, 0x2e377c1f, 0x884e8f52, 0x83524beb, 0xe74ebdbd, 0, 0, 0] 64
        (List.replicate 56 0x61))) (fun t => (t.h.toList, t.count, t.phase)) =
      some ([0xf34c1488, 0x385346a5, 0x5709ba05, 0x6ddd0828, 0x0dd4c6d6, 0, 0, 0], 120, .finalized) ∧
    after (exec (.final 0) State.reset) statusWord = some 0x00000050 ∧
    after (exec (.final 64) State.reset) statusWord = some 0x00000030 := by decide +kernel

/-- L2-HM-11, with bytes of KEYBUF past k set: they are not read. -/
theorem test_hmacInit :
    after (exec (.hmacInit 1 20) { State.reset with keyBuf := zeroFill (List.replicate 20 0x0b ++ [0xff, 0xee]) })
      (fun t => (t.h.toList, t.count, statusWord t)) =
      some ([0x2bb21804, 0x23b95bf9, 0xb4e8258c, 0xfab5e654, 0x11f2921e, 0x4feb78ee, 0x9890e5fe, 0x64b78036], 64,
        0x00003100) := by decide +kernel

/-- L2-CMD-11, L2-CMD-12, L2-HM-13. -/
theorem test_hmacInit_errors :
    after (exec (.hmacInit 0 65) (accumulating .sha256 iv256 0 [])) statusWord = some 0x00001140 ∧
    after (exec (.hmacInit 2 65) (accumulating .sha256 iv256 0 [])) statusWord = some 0x00001120 ∧
    after (exec (.hmacInit 0 65) State.reset) statusWord = some 0x00000040 := by decide +kernel

/-- L2-CMD-4: the engine's step on each kind of reserved opcode. -/
theorem test_illegal_command : after (step (running 0x0 0)) statusWord = some 0x00000010 ∧
    after (step (running 0x5 0)) statusWord = some 0x00000010 ∧
    after (step (running 0xF 0)) statusWord = some 0x00000010 := by decide

/-! ### The register window -/

/-- L2-REG-1, L2-REG-2, L2-COD-7, and KEY[15] at the end of its range. -/
theorem test_reads : after (step (hostDoes [asmRd 0x00])) (·.reply) = some (some 0x53484131) ∧
    after (step (hostDoes [asmRd 0x04])) (·.reply) = some (some 0) ∧
    after (step { hostDoes [asmRd 0x40] with blk := zeroFill [0x61, 0x62, 0x63] }) (·.reply) = some (some 0x61626300) ∧
    after (step { hostDoes [asmRd 0xBC] with keyBuf := zeroFill (List.replicate 60 0 ++ [1, 2, 3, 4]) }) (·.reply) =
      some (some 0x01020304) := by decide +kernel

/-- R40: the two halves of COUNT = 2^61 − 64 (L2-CMD-17), and L2-REG-4's read of DIGEST[0]. -/
theorem test_reads_of_results :
    after (step { hostDoes [asmRd 0x10] with count := 0x1FFFFFFFFFFFFFC0 }) (·.reply) = some (some 0xFFFFFFC0) ∧
    after (step { hostDoes [asmRd 0x14] with count := 0x1FFFFFFFFFFFFFC0 }) (·.reply) = some (some 0x1FFFFFFF) ∧
    after (step { hostDoes [asmRd 0xC0] with h := iv1 }) (·.reply) = some (some 0x67452301) := by decide

/-- L2-REG-8: a BLOCK[0] write while BUSY = 1 is dropped and sets OVR. -/
theorem test_dropped_write :
    after (step { running 1 1 with inbox := [asmWr 0x40 0x61626380] }) (fun t => (statusWord t, t.blk.toList.take 4)) =
      some (0x00000003, [0, 0, 0, 0]) := by decide

/-- L2-REG-9 and L2-REG-6: CLROVR clears OVR, and other bits do nothing. -/
theorem test_clear_overrun : after (step { hostDoes [asmClrOvr] with ovr := true }) (·.ovr) = some false ∧
    after (step { hostDoes [asmWr 0x08 0xFFFFFFFD] with ovr := true }) (·.ovr) = some true := by decide

/-- L2-REG-7: the accesses of R52 the model records as BadAccess. -/
theorem test_bad_access : step (hostDoes [.read 0x40 1]) = .fault (.badAccess 0x40 1) ∧
    step (hostDoes [asmRd 0x41]) = .fault (.badAccess 0x41 4) ∧
    step (hostDoes [asmRd 0x100]) = .fault (.badAccess 0x100 4) := ⟨rfl, rfl, rfl⟩

/-- R200: a CMD write while idle starts a command. -/
theorem test_accept : after (step (hostDoes [asmCommand (.final 3)])) (fun t => (t.pend, t.busy, t.err)) =
    some (0x00000303, true, .none) := by decide

/-! ### Witnesses: the hypotheses of each statement are met together, clause by clause, at the ends of their ranges -/

theorem witness_DecodeOfEncodeIsTheCommand :
    WellFormed (.init 3) ∧ WellFormed .block ∧ WellFormed (.final 127) ∧ WellFormed (.hmacInit 3 127) := by decide

theorem witness_EncodeOfDecodeClearsIgnoredBits : decode 0xFFFFFFF2 = .ok .block ∧ decode 0xFFFFFFFF ≠ .ok .block := by
  decide

theorem witness_IgnoredBitsDoNotChangeTheCommand :
    (0xFFFF80C5 : Word) &&& 0x00007F3F = 0x00000005 &&& 0x00007F3F ∧
    (decode 0x00000031 = .ok (.init 3) ∧ (0xFFFFFFF1 : Word) &&& 0x0000003F = 0x00000031 &&& 0x0000003F) ∧
    (decode 0x00000002 = .ok .block ∧ (0xFFFFFFF2 : Word) &&& 0x0000000F = 0x00000002 &&& 0x0000000F) ∧
    (decode 0x00007F03 = .ok (.final 127) ∧ (0xFFFFFFF3 : Word) &&& 0x00007F0F = 0x00007F03 &&& 0x00007F0F) := by decide

/-- The idle core after reset has its host's turn; so has a core whose command is not due. -/
theorem hostTurn_reset : State.reset.HostTurn ∧ State.reset.busy = false := ⟨⟨rfl, rfl⟩, rfl⟩

theorem hostTurn_running : (running 2 1).HostTurn ∧ (running 2 1).busy = true := ⟨⟨rfl, rfl⟩, rfl⟩

theorem witness_ReservedOpcodeEndsInIllegalCommand :
    (State.reset.HostTurn ∧ State.reset.busy = false ∧ opField 0xFFFFFFF0 = 0 ∧ 5 ≤ opField 0xFFFFFFF5) ∧
    ((running 0x10 0).engineTurn = true ∧ opField (running 0x10 0).pend = 0) ∧
    ((running 0x0F 0).engineTurn = true ∧ 5 ≤ opField (running 0x0F 0).pend) :=
  ⟨⟨⟨rfl, rfl⟩, rfl, by decide, by decide⟩, ⟨rfl, by decide⟩, ⟨rfl, by decide⟩⟩

theorem witness_StepRunsThePendingCommand :
    ((running 0x7F04 0).engineTurn = true ∧ decode (running 0x7F04 0).pend = .ok (.hmacInit 0 127)) ∧
    WellFormed (.hmacInit 3 127) := ⟨⟨rfl, by decide⟩, by decide⟩

theorem witness_CommandWriteIsAcceptedOrDropped :
    (State.reset.HostTurn ∧ State.reset.busy = false) ∧ ((running 2 1).HostTurn ∧ (running 2 1).busy = true) :=
  ⟨hostTurn_reset, hostTurn_running⟩

theorem witness_InitStartsAComputation : (0 : Nat) = 0 ∧ (1 : Nat) = 1 ∧ 2 ≤ 2 ∧ 2 ≤ 3 := by decide

/-- The last block that fits, and the first that does not. -/
theorem witness_BlockCompressesTheBuffer :
    ((accumulating .sha256 iv256 0x1FFFFFFFFFFFFF80 []).phase = .accumulating ∧
      (accumulating .sha256 iv256 0x1FFFFFFFFFFFFF80 []).count.toNat + 64 < 2 ^ 61) ∧
    ((accumulating .sha1 iv1 0x1FFFFFFFFFFFFFC0 []).phase = .accumulating ∧
      2 ^ 61 ≤ (accumulating .sha1 iv1 0x1FFFFFFFFFFFFFC0 []).count.toNat + 64) ∧
    State.reset.phase ≠ .accumulating ∧ finalized.phase ≠ .accumulating :=
  ⟨⟨rfl, by decide⟩, ⟨rfl, by decide⟩, by decide, by decide⟩

theorem witness_FinalClosesTheComputation :
    (63 ≤ 63 ∧ (accumulating .sha1 iv1 64 []).phase = .accumulating) ∧ 63 < 64 ∧ (63 ≤ 63 ∧ finalized.phase ≠ .accumulating) :=
  ⟨⟨by decide, rfl⟩, by decide, by decide, by decide⟩

/-- Each command ends without error somewhere, and BLOCK and FINAL with SEQUENCE elsewhere. -/
theorem witness_PhaseTransitionTable :
    (∃ t, exec (.init 1) State.reset = .next t ∧ t.err = .none) ∧
    (∃ t, exec (.hmacInit 1 64) finalized = .next t ∧ t.err = .none) ∧
    (∃ t, exec .block (accumulating .sha1 iv1 0 []) = .next t ∧ t.err = .none) ∧
    (∃ t, exec (.final 63) (accumulating .sha1 iv1 0 []) = .next t ∧ t.err = .none) ∧
    (∃ t, exec .block finalized = .next t ∧ t.err ≠ .none) ∧ ∃ t, exec (.final 63) State.reset = .next t ∧ t.err ≠ .none :=
  ⟨⟨_, exec_of_completes (.init 1 (by decide)), rfl⟩, ⟨_, exec_of_completes (.hmacInit 1 64 (by decide) (by decide)), rfl⟩,
    ⟨_, exec_of_completes (.block rfl (by decide)), rfl⟩, ⟨_, exec_of_completes (.final 63 (by decide) rfl), rfl⟩,
    ⟨_, rfl, by decide⟩, ⟨_, rfl, by decide⟩⟩

/-- A finished core with nothing to do, one about to start a new computation, and one leaving reset. -/
theorem witness_FinalizedDigestStays :
    (finalized.phase = .finalized ∧ ∃ t, step finalized = .next t) ∧
    (∃ t, step (finalized.placeCommand 0x11) = .next t) ∧
    ∃ t, step { finalized with rst := true, inbox := [.resetInput false] } = .next t :=
  ⟨⟨rfl, _, rfl⟩, ⟨_, rfl⟩, ⟨_, rfl⟩⟩

/-- The empty message and the longest one. -/
theorem witness_DigestOfEveryMessage :
    ([] : List Byte).length < 2 ^ 61 ∧ (List.replicate (2 ^ 61 - 1) (0 : Byte)).length < 2 ^ 61 := by
  refine ⟨by decide, ?_⟩
  rw [List.length_replicate]
  decide

theorem witness_HmacInitStartsAComputation : ((1 < 2) ∧ 64 ≤ 64) ∧ 2 ≤ 3 ∧ (1 < 2 ∧ 64 < 65) := by decide

theorem witness_KeyBlockAndPadBytes :
    ([] : List Byte).length ≤ 64 ∧ (List.replicate 64 (0x0b : Byte)).length ≤ 64 := by decide

theorem witness_MacOfEveryMessage : (List.replicate 64 (0 : Byte)).length ≤ 64 ∧
    64 + (List.replicate (2 ^ 61 - 65) (0 : Byte)).length < 2 ^ 61 := by
  refine ⟨by decide, ?_⟩
  rw [List.length_replicate]
  decide

/-- A KEYBUF that differs past byte k, for HMAC_INIT, and one that differs everywhere, for BLOCK and FINAL. -/
theorem witness_MacDoesNotDependOnOtherKeyBytes :
    ((∀ j : Fin 64, j.val < 20 → (zeroFill (List.replicate 20 0 ++ [1]))[j.val] = State.reset.keyBuf[j.val]) ∧
      zeroFill (List.replicate 20 0 ++ [1]) ≠ State.reset.keyBuf ∧ ∃ t, exec (.hmacInit 1 20) State.reset = .next t) ∧
    (∃ t, exec .block (accumulating .sha1 iv1 0 []) = .next t) ∧
    ∃ t, exec (.final 63) (accumulating .sha1 iv1 0 []) = .next t :=
  ⟨⟨by decide +kernel, by decide +kernel, _, exec_of_completes (.hmacInit 1 20 (by decide) (by decide))⟩,
    ⟨_, exec_of_completes (.block rfl (by decide))⟩, ⟨_, exec_of_completes (.final 63 (by decide) rfl)⟩⟩

theorem witness_ErrorsArePrecise : (∃ t, exec (.final 64) finalized = .next t ∧ t.err ≠ .none) ∧
    (running 0x0F 0).engineTurn = true ∧ ∃ t, step (running 0x0F 0) = .next t ∧ t.err ≠ .none :=
  ⟨⟨_, rfl, by decide⟩, rfl, _, rfl, by decide⟩

/-- The longest message: FINAL 63 at COUNT = 2^61 − 64 (L2-CMD-18). -/
theorem witness_FinalLengthIsNeverTruncated : (accumulating .sha1 iv1 0x1FFFFFFFFFFFFFC0 []).Inv ∧
    ∃ t, exec (.final 63) (accumulating .sha1 iv1 0x1FFFFFFFFFFFFFC0 []) = .next t ∧ t.err = .none :=
  ⟨⟨by decide, fun _ => by decide, nofun, fun _ => by decide, nofun, fun _ => rfl⟩,
    _, exec_of_completes (.final 63 (by decide) rfl), rfl⟩

/-- Both sides of the equivalence hold of some state, for each of the three reasons and for a write. -/
theorem witness_MachineStopsOnlyOnBadAccess :
    ((hostDoes [.read 0xFC 2]).HostTurn ∧ step (hostDoes [.read 0xFC 2]) = .fault (.badAccess 0xFC 2)) ∧
    step (hostDoes [.write 0xFE 4 0]) = .fault (.badAccess 0xFE 4) ∧
    step (hostDoes [.read 0x100 4]) = .fault (.badAccess 0x100 4) :=
  ⟨⟨⟨rfl, rfl⟩, rfl⟩, rfl, rfl⟩

/-- OVR is cleared by CLROVR and by reset, and set by a dropped write to CMD, to BLOCK[0] and to KEY[15]. -/
theorem witness_OvrIsSticky :
    after (step { hostDoes [asmClrOvr] with ovr := true }) (·.ovr) = some false ∧
    after (step { hostDoes [.resetInput false] with ovr := true, rst := true }) (·.ovr) = some false ∧
    after (step { running 1 1 with inbox := [asmWr 0x04 1] }) (·.ovr) = some true ∧
    after (step { running 1 1 with inbox := [asmWr 0x40 1] }) (·.ovr) = some true ∧
    after (step { running 1 1 with inbox := [asmWr 0xBC 1] }) (·.ovr) = some true := by decide

/-- Two cores; the first takes a step. -/
theorem witness_CoresAreIndependent : ∃ p q : Platform, p.length = 2 ∧ p.stepAt 0 = .next q ∧ (1 : Nat) ≠ 0 :=
  ⟨[running 1 0, { State.reset with base := 0x100 }], _, rfl, rfl, by decide⟩

theorem witness_IdAlwaysReadsItsConstant : State.reset.HostTurn ∧ (running 2 1).HostTurn :=
  ⟨hostTurn_reset.1, hostTurn_running.1⟩

theorem witness_StatusRegister : State.reset.HostTurn ∧ (running 2 1).HostTurn :=
  ⟨hostTurn_reset.1, hostTurn_running.1⟩

theorem witness_CountIsReadInTwoHalves : State.reset.HostTurn ∧ State.reset.busy = false := hostTurn_reset

theorem witness_DigestRegistersReadH : State.reset.HostTurn ∧ State.reset.busy = false := hostTurn_reset

theorem witness_BufferRegistersReadBigEndian : State.reset.HostTurn ∧ State.reset.busy = false := hostTurn_reset

theorem witness_BufferRegisterWritesOwnBytes : State.reset.HostTurn ∧ State.reset.busy = false := hostTurn_reset

/-- Both ends of each reserved range, in an idle and in a busy core. -/
theorem witness_ReservedOffsetsReadZero : State.reset.HostTurn ∧ State.reset.busy = false ∧ (running 2 1).HostTurn ∧
    ∀ off ∈ [0x0C, 0x18, 0x3C, 0xE0, 0xFC],
      off % 4 = 0 ∧ (off = 0x0C ∨ (0x18 ≤ off ∧ off < 0x40) ∨ (0xE0 ≤ off ∧ off < 0x100)) :=
  ⟨hostTurn_reset.1, rfl, hostTurn_running.1, by decide⟩

theorem witness_BusyAccesses : ((running 2 1).HostTurn ∧ (running 2 1).busy = true) ∧
    (0x00 % 4 = 0 ∧ 0x00 < 0x100) ∧ 0xFC % 4 = 0 ∧ 0xFC < 0x100 := ⟨hostTurn_running, by decide⟩

/-- A read while idle, and one whose value is free while busy. -/
theorem witness_ReadsHaveNoSideEffects :
    ((hostDoes [asmRd 0xFC]).engineTurn = false ∧ ∃ t, step (hostDoes [asmRd 0xFC]) = .next t) ∧
    ({ running 1 1 with inbox := [asmRd 0x10] } : State).engineTurn = false ∧
      ∃ t, step { running 1 1 with inbox := [asmRd 0x10] } = .next t := ⟨⟨rfl, _, rfl⟩, rfl, _, rfl⟩

/-- A write to BLOCK[15], to KEY[0] and to CMD, each changing what it may. -/
theorem witness_HostWritesOnlyItsElements :
    ((hostDoes [asmWr 0x7C 1]).engineTurn = false ∧ (hostDoes [asmWr 0x7C 1]).inbox.head? ≠ some (.resetInput false)) ∧
    after (step (hostDoes [asmWr 0x7C 1])) (fun t => decide (t.blk ≠ State.reset.blk)) = some true ∧
    after (step (hostDoes [asmWr 0x80 1])) (fun t => decide (t.keyBuf ≠ State.reset.keyBuf)) = some true ∧
    after (step (hostDoes [asmWr 0x04 1])) (fun t => decide (t.pend ≠ 0 ∧ t.busy ≠ false)) = some true :=
  ⟨⟨rfl, by decide⟩, by decide +kernel, by decide +kernel, by decide⟩

theorem witness_CommandFrame : (∃ t, exec (.init 1) State.reset = .next t) ∧
    ∃ t, exec (.final 63) (accumulating .sha256 iv256 0 []) = .next t :=
  ⟨⟨_, rfl⟩, ⟨_, exec_of_completes (.final 63 (by decide) rfl)⟩⟩

/-- A write to BLOCK[0] and one to CMD while busy. -/
theorem witness_OperandsAreHeldWhileBusy : ∀ op ∈ [asmWr 0x40 1, asmWr 0x04 3],
    ({ running 2 1 with inbox := [op] } : State).busy = true ∧
      ({ running 2 1 with inbox := [op] } : State).engineTurn = false ∧ [op].head? ≠ some (.resetInput false) ∧
      (after (step { running 2 1 with inbox := [op] }) (·.busy)) = some true := by decide

theorem witness_KeyLatchIsHidden :
    State.reset.HostTurn ∧ State.reset.busy = false ∧ State.reset.Reads 0xFC 0 :=
  ⟨hostTurn_reset.1, rfl, reads_exact (off := 0xFC) hostTurn_reset.1 (by decide) (by decide) (.inl rfl)⟩

theorem witness_LoadMacrosFillTheBuffers :
    (∃ s : State, s.busy = false ∧ s.rst = false ∧ s.inbox = asmLoadBlk [1] ++ [.wait]) ∧
    ∃ s : State, s.busy = false ∧ s.rst = false ∧ s.inbox = asmLoadKey [] ++ [] :=
  ⟨⟨hostDoes (asmLoadBlk [1] ++ [.wait]), rfl, rfl, rfl⟩, ⟨hostDoes (asmLoadKey [] ++ []), rfl, rfl, rfl⟩⟩

theorem witness_BlockWordsAreTheBlockRegisters : State.reset.HostTurn ∧ State.reset.busy = false := hostTurn_reset

/-- The last byte of a SHA-1 and of a SHA-256 digest. -/
theorem witness_SerializedDigestBytes : 4 * 4 + 3 < Alg.sha1.digestLen ∧ 4 * 7 + 3 < Alg.sha256.digestLen := by decide

theorem witness_PaddedTailShape : ∀ n ∈ [0, 55, 56, 63], (List.replicate n (0x61 : Byte)).length ≤ 63 := by decide

/-- The first and the last zero byte of the padded empty message. -/
theorem witness_PaddedStreamLength : (([] : List Byte).length < 1 ∧ 1 + 8 < (padded []).length) ∧
    (([] : List Byte).length < 55 ∧ 55 + 8 < (padded []).length) := by decide

/-- A BLK that differs from byte n on. -/
theorem witness_FinalDoesNotReadPastTheTail :
    (∀ j : Fin 64, j.val < 63 → (zeroFill (List.replicate 63 0 ++ [1]))[j.val] = (accumulating .sha1 iv1 0 []).blk[j.val]) ∧
    zeroFill (List.replicate 63 0 ++ [1]) ≠ (accumulating .sha1 iv1 0 []).blk ∧
    ∃ t, exec (.final 63) (accumulating .sha1 iv1 0 []) = .next t :=
  ⟨by decide +kernel, by decide +kernel, _, exec_of_completes (.final 63 (by decide) rfl)⟩

theorem witness_RotatesMoveBits : (0 < 32 ∧ 31 < 32) ∧ (31 < 32 ∧ 0 < 32) := by decide

theorem witness_ChooseAndMajority : 0 < 32 ∧ 31 < 32 := by decide

theorem witness_SigmaBits : 0 < 32 ∧ 31 < 32 := by decide

/-- The first and last round of each phase. -/
theorem witness_Sha1PhaseFunctions : (0 ≤ 19 ∧ 19 ≤ 19) ∧ (20 ≤ 20 ∧ 20 ≤ 39 ∧ 20 ≤ 39 ∧ 39 ≤ 39) ∧
    (40 ≤ 40 ∧ 40 ≤ 59 ∧ 40 ≤ 59 ∧ 59 ≤ 59) ∧ (60 ≤ 60 ∧ 60 ≤ 79 ∧ 60 ≤ 79 ∧ 79 ≤ 79) := by decide

theorem witness_Sha1ScheduleRecurrence : abcBlock.length = 64 ∧ 15 < 16 ∧ (16 ≤ 16 ∧ 16 < 80) ∧ (16 ≤ 79 ∧ 79 < 80) := by
  decide

theorem witness_Sha256ScheduleRecurrence : abcBlock.length = 64 ∧ 15 < 16 ∧ (16 ≤ 16 ∧ 16 < 64) ∧ (16 ≤ 63 ∧ 63 < 64) := by
  decide

theorem witness_CompressionRunsItsRoundsInOrder : abcBlock.length = 64 ∧ 79 < 80 ∧ 63 < 64 := by decide

theorem witness_ResetRestoresEveryElement :
    (∃ s : State, s.rst = true ∧ s.busy = true ∧ s.inbox = .resetInput false :: [.wait]) ∧
    ∃ s : State, s.engineTurn = false ∧ s.busy = true ∧ s.inbox = .resetInput true :: .resetInput false :: [] :=
  ⟨⟨{ running 2 1 with rst := true, inbox := [.resetInput false, .wait] }, rfl, rfl, rfl⟩,
    ⟨{ running 2 1 with inbox := [.resetInput true, .resetInput false] }, rfl, rfl, rfl⟩⟩

/-- In reset with a command pending and a write in store. -/
theorem witness_NothingHappensInReset :
    ∃ s : State, s.rst = true ∧ s.busy = true ∧ s.inbox.head? = some (asmWr 0x04 1) ∧
      s.inbox.head? ≠ some (.resetInput false) :=
  ⟨{ running 2 0 with rst := true, inbox := [asmWr 0x04 1] }, rfl, rfl, rfl, by decide⟩

theorem witness_IdleCoreKeepsItsState : finalized.busy = false ∧ finalized.inbox = [] := ⟨rfl, rfl⟩

/-- A command due at once, and one two turns away while the host overruns and waits. -/
theorem witness_AcceptedCommandCompletes :
    ((running 2 0).busy = true ∧ (running 2 0).rst = false ∧ (running 2 0).hostWellBehaved = true) ∧
    ∃ s : State, s.busy = true ∧ s.rst = false ∧ s.slack = 2 ∧ s.inbox = [asmWr 0x40 1, .wait] ∧ s.hostWellBehaved = true :=
  ⟨⟨rfl, rfl, rfl⟩, { running 2 2 with inbox := [asmWr 0x40 1, .wait] }, rfl, rfl, rfl, rfl, rfl⟩

theorem witness_WaitLoopEnds : ∃ s : State, s.rst = false ∧ s.inbox = .wait :: [asmRd 0xC0] ∧ s.busy = true ∧ s.slack = 2 :=
  ⟨{ running 2 2 with inbox := [.wait, asmRd 0xC0] }, rfl, rfl, rfl, rfl⟩

/-- HMAC_INIT with the longest key; INIT, which keeps BLK; and FINAL 64, which keeps it because it ends in an error. -/
theorem witness_WrittenCommandTakesEffect :
    (∃ s : State, s.busy = false ∧ s.rst = false ∧ decode 0x4014 = .ok (.hmacInit 1 64) ∧
      s.inbox = asmWr 0x04 0x4014 :: .wait :: [asmRd 0xC0]) ∧
    (∃ s : State, s.busy = false ∧ s.rst = false ∧ decode 0x11 = .ok (.init 1) ∧ s.inbox = asmWr 0x04 0x11 :: .wait :: []) ∧
    ∃ s : State, s.busy = false ∧ s.rst = false ∧ decode 0x4003 = .ok (.final 64) ∧
      s.inbox = asmWr 0x04 0x4003 :: .wait :: [] ∧
      ∃ u, exec (.final 64) { s with pend := 0x4003, err := .none, busy := true } = .next u ∧ u.err ≠ .none :=
  ⟨⟨hostDoes [asmWr 0x04 0x4014, .wait, asmRd 0xC0], rfl, rfl, by decide, rfl⟩,
    ⟨hostDoes [asmWr 0x04 0x11, .wait], rfl, rfl, by decide, rfl⟩,
    ⟨hostDoes [asmWr 0x04 0x4003, .wait], rfl, rfl, by decide, rfl, _, rfl, by decide⟩⟩

theorem witness_BusTrafficComputesDigestAndMac :
    (∃ s : State, s.busy = false ∧ s.rst = false ∧ s.inbox = asmHash .sha1 [0x61] ++ [asmRd 0xC0]) ∧
    ∃ s : State, s.busy = false ∧ s.rst = false ∧ s.inbox = asmMac .sha256 (List.replicate 64 0) [] ++ [] :=
  ⟨⟨hostDoes _, rfl, rfl, rfl⟩, ⟨hostDoes _, rfl, rfl, rfl⟩⟩

/-- A computation at its last block (COUNT = 2^61 − 64) meets the invariant, and steps. -/
theorem witness_StepKeepsInvariant : ∃ s t : State, s.Inv ∧ s.busy = true ∧ s.phase = .accumulating ∧ step s = .next t := by
  refine ⟨(accumulating .sha1 iv1 0x1FFFFFFFFFFFFFC0 []).placeCommand 2, _, ?_, rfl, rfl, rfl⟩
  exact ⟨fun _ => rfl, fun _ => by decide, nofun, fun _ => by decide, nofun, fun _ => rfl⟩

end Sys2Proof.Tests
end

/-! What the rotates and the shift of 00_scope.md R10 do to each bit of a word. -/

namespace Sys2Proof.Machine

open Sys2Proof

/-- A bit that stays below bit 32 comes from `rotl`'s left shift, a bit that wraps comes from its right shift. -/
theorem getLsbD_rotl_add_mod (x : Word) {n i : Nat} (hn : n < 32) (hi : i < 32) :
    (rotl x n).getLsbD ((i + n) % 32) = x.getLsbD i := by
  rw [rotl, BitVec.getLsbD_or, BitVec.getLsbD_shiftLeft, BitVec.getLsbD_ushiftRight]
  obtain hstays | hwraps := Nat.lt_or_ge (i + n) 32
  · have hpast : x.getLsbD (32 - n + (i + n)) = false := BitVec.getLsbD_of_ge x _ (by omega)
    simp [Nat.mod_eq_of_lt hstays, hstays, hpast]
  · have hmod : (i + n) % 32 = i + n - 32 := by omega
    have hbelow : i + n - 32 < n := by omega
    have hsource : 32 - n + (i + n - 32) = i := by omega
    simp [hmod, hbelow, hsource]

/-- `rotr` by n is `rotl` by the amount that takes bit (i + n) mod 32 back to bit i. -/
theorem getLsbD_rotr (x : Word) {n i : Nat} (hn : n < 32) (hi : i < 32) :
    (rotr x n).getLsbD i = x.getLsbD ((i + n) % 32) := by
  have hback : ((i + n) % 32 + (32 - n) % 32) % 32 = i := by omega
  calc (rotr x n).getLsbD i
      = (rotl x ((32 - n) % 32)).getLsbD (((i + n) % 32 + (32 - n) % 32) % 32) := by rw [hback, rotr]
    _ = x.getLsbD ((i + n) % 32) := getLsbD_rotl_add_mod x (Nat.mod_lt _ (by decide)) (Nat.mod_lt _ (by decide))

theorem getLsbD_shr (x : Word) (n i : Nat) :
    (shr x n).getLsbD i = (decide (i + n < 32) && x.getLsbD (i + n)) := by
  rw [shr, BitVec.getLsbD_ushiftRight, Nat.add_comm n i]
  obtain hin | hpast := Nat.lt_or_ge (i + n) 32
  · simp [hin]
  · simp [BitVec.getLsbD_of_ge x _ hpast]

/-- Settles O44: each of the three operations by its own bit lemma. -/
theorem rotatesMoveBits : Obligations.RotatesMoveBits := by
  intro x n i hn hi
  exact ⟨getLsbD_rotl_add_mod x hn hi, getLsbD_rotr x hn hi, getLsbD_shr x n i⟩

end Sys2Proof.Machine

/-! What an access of the host's turn returns and changes, and which state elements a step of either agent can move
(10_state.md, 20_memory.md). -/

namespace Sys2Proof.Machine

open Sys2Proof

/-- Where the engine has no step, the step taken is the host's. -/
theorem hostStep_of_step {s t : State} (he : s.engineTurn = false) (h : step s = .next t) : HostStep s t :=
  hostTurn_next (by simpa [step, he] using h)

/-! ### The registers' offsets and what an access to one comes to -/

@[simp] theorem regAt_status : regAt 0x08 = .status := rfl

@[simp] theorem regAt_countLo : regAt 0x10 = .countLo := rfl

@[simp] theorem regAt_countHi : regAt 0x14 = .countHi := rfl

/-- The offsets whose registers drop a write while BUSY = 1 (20_memory.md R56). -/
theorem regAt_cmd_or_buffer_iff (off : Nat) :
    (regAt off = .cmd ∨ (∃ i, regAt off = .block i) ∨ ∃ i, regAt off = .key i) ↔
      off = 0x04 ∨ (0x40 ≤ off ∧ off < 0xC0) := by
  obtain ⟨hcmd, -, hblock, hkey⟩ := regAt_cases off
  constructor
  · rintro (h | ⟨i, h⟩ | ⟨i, h⟩)
    · exact .inl (hcmd h)
    · have := hblock i h; omega
    · have := hkey i h; omega
  · rintro (rfl | hbuf)
    · exact .inl rfl
    · have hlow : off ≠ 0x00 ∧ off ≠ 0x04 ∧ off ≠ 0x08 ∧ off ≠ 0x10 ∧ off ≠ 0x14 := by omega
      by_cases hb : off < 0x80
      · exact .inr (.inl ⟨Fin.ofNat 16 ((off - 0x40) / 4), by simp [regAt, hlow, hbuf, hb]⟩)
      · have hk : 0x80 ≤ off := by omega
        exact .inr (.inr ⟨Fin.ofNat 16 ((off - 0x80) / 4), by simp [regAt, hlow, hbuf, hb, hk]⟩)

/-- With reset not asserted, a read at the head of the queue is the access performed, and it is permitted. -/
theorem HostStep.reply_of_read {s t : State} {off : Nat} (h : HostStep s t) (hr : s.rst = false)
    (hq : s.inbox.head? = some (.read off 4)) :
    off % 4 = 0 ∧ off < 0x100 ∧ t.reply = some (hostRead s (regAt off)).1 := by
  cases h with
  | read off' rest hq' _ ha ho =>
    obtain rfl : off' = off := by simpa [hq'] using hq
    exact ⟨ha, ho, rfl⟩
  | _ => simp_all

/-- A read completes only at a permitted offset, and then with the word `hostRead` gives. -/
theorem reads_iff {s : State} {off : Nat} {v : Word} (hs : s.HostTurn) :
    s.Reads off v ↔ off % 4 = 0 ∧ off < 0x100 ∧ v = (hostRead s (regAt off)).1 := by
  constructor
  · intro h
    obtain ⟨t, hstep, hreply, -, -⟩ := h []
    obtain ⟨ha, ho, hreply'⟩ :=
      (hostStep_of_step (s := { s with inbox := [.read off 4] }) hs.1 hstep).reply_of_read hs.2 rfl
    rw [hostRead_queue] at hreply'
    exact ⟨ha, ho, Option.some.inj (hreply.symm.trans hreply')⟩
  · rintro ⟨ha, ho, rfl⟩
    exact reads_hostRead hs ha ho

/-- A write to a register that ignores writes changes no state element. -/
theorem writes_ignored {s : State} {off : Nat} {v : Word} (hs : s.HostTurn) (ha : off % 4 = 0) (ho : off < 0x100)
    (hw : ∀ u : State, hostWrite u (regAt off) v = u) : s.Writes off v s :=
  writes_hostWrite hs ha ho fun rest => by rw [hw]; exact turn_sameCore s rest none

/-- The host's registers do not show KBLK (10_state.md R28). -/
theorem readReg_kblk (s : State) (k : Vector Byte 64) (r : Reg) : readReg { s with kblk := k } r = readReg s r := by
  cases r <;> rfl

/-! ### Fields of a word, from its number -/

theorem getLsbD_of_toNat {w : Word} {i : Nat} {b : Bool} (h : w.toNat / 2 ^ i % 2 = b.toNat) : w.getLsbD i = b := by
  rw [BitVec.getLsbD, Nat.testBit_eq_decide_div_mod_eq, h]
  cases b <;> rfl

theorem extractLsb'_of_toNat {w : Word} {start len n : Nat} (h : w.toNat / 2 ^ start % 2 ^ len = n % 2 ^ len) :
    w.extractLsb' start len = BitVec.ofNat len n := by
  apply BitVec.eq_of_toNat_eq
  rw [BitVec.extractLsb'_toNat, Nat.shiftRight_eq_div_pow, h, BitVec.toNat_ofNat]

theorem ErrCode.code_lt (c : ErrCode) : c.code < 16 := by cases c <;> decide

theorem Phase.code_lt (p : Phase) : p.code < 4 := by cases p <;> decide

/-- The sum of the STATUS fields fits the word. -/
theorem statusWord_toNat (s : State) :
    (statusWord s).toNat = s.busy.toNat + s.ovr.toNat * 2 ^ 1 + s.err.code * 2 ^ 4 + s.phase.code * 2 ^ 8 +
      s.algl.code * 2 ^ 12 + s.hmacm.toNat * 2 ^ 13 := by
  have := s.busy.toNat_lt
  have := s.ovr.toNat_lt
  have := s.err.code_lt
  have := s.phase.code_lt
  have := code_lt s.algl
  have := s.hmacm.toNat_lt
  rw [statusWord, BitVec.toNat_ofNat]
  omega

/-- STATUS holds each field in its place, and 0 in the reserved bits (10_state.md R38). -/
theorem statusWord_fields (s : State) :
    (statusWord s).getLsbD 0 = s.busy ∧ (statusWord s).getLsbD 1 = s.ovr ∧ (statusWord s).extractLsb' 2 2 = 0 ∧
    (statusWord s).extractLsb' 4 4 = BitVec.ofNat 4 s.err.code ∧
    (statusWord s).extractLsb' 8 2 = BitVec.ofNat 2 s.phase.code ∧ (statusWord s).extractLsb' 10 2 = 0 ∧
    (statusWord s).extractLsb' 12 1 = BitVec.ofNat 1 s.algl.code ∧ (statusWord s).getLsbD 13 = s.hmacm ∧
    (statusWord s).extractLsb' 14 18 = 0 := by
  have hw := statusWord_toNat s
  have := s.busy.toNat_lt
  have := s.ovr.toNat_lt
  have := s.err.code_lt
  have := s.phase.code_lt
  have := code_lt s.algl
  have := s.hmacm.toNat_lt
  refine ⟨getLsbD_of_toNat ?_, getLsbD_of_toNat ?_, extractLsb'_of_toNat (n := 0) ?_, extractLsb'_of_toNat ?_,
    extractLsb'_of_toNat ?_, extractLsb'_of_toNat (n := 0) ?_, extractLsb'_of_toNat ?_, getLsbD_of_toNat ?_,
    extractLsb'_of_toNat (n := 0) ?_⟩
  all_goals omega

/-! ### Which state elements a step can move -/

theorem performWait_sameCore (s : State) (rest : List HostOp) : s.SameCore (performWait s rest) := by
  unfold performWait
  split <;> exact turn_sameCore _ _ _

/-- Every command leaves the elements that only the host and the reset input may change (10_state.md R45). -/
theorem Completes.frame {i : Instr} {s t : State} (h : Completes s i t) :
    t.keyBuf = s.keyBuf ∧ t.pend = s.pend ∧ t.ovr = s.ovr ∧ t.rst = s.rst ∧ t.slack = s.slack ∧ t.inbox = s.inbox ∧
      t.reply = s.reply := by
  cases h <;> simp

/-- The host's turn by what it does to the state elements: nothing, a release of reset, or one write. -/
theorem HostStep.core_cases {s t : State} (h : HostStep s t) :
    s.SameCore t ∨
    (s.rst = true ∧ s.inbox.head? = some (.resetInput false) ∧ ∃ rest, t = s.leaveReset rest) ∨
    ∃ off v rest, s.inbox.head? = some (.write off 4 v) ∧ Written (s.turn rest none) v (regAt off) t := by
  cases h with
  | idle => exact .inl (turn_sameCore _ _ _)
  | assertReset => exact .inl (by constructor <;> rfl)
  | releaseReset rest hq hr => exact .inr (.inl ⟨hr, by rw [hq]; rfl, rest, rfl⟩)
  | resetStaysReleased => exact .inl (turn_sameCore _ _ _)
  | inReset => exact .inl (turn_sameCore _ _ _)
  | read off => exact .inl ((hostRead_sameCore s (regAt off)).trans (turn_sameCore _ _ _))
  | write off v rest hq => exact .inr (.inr ⟨off, v, rest, by rw [hq]; rfl, hostWrite_written _ _ _⟩)
  | wait rest => exact .inl (performWait_sameCore s rest)

/-- With reset not asserted, a write at the head of the queue is the access performed. -/
theorem HostStep.written {s t : State} {off : Nat} {v : Word} (h : HostStep s t) (hr : s.rst = false)
    (hq : s.inbox.head? = some (.write off 4 v)) :
    ∃ rest, Written (s.turn rest none) v (regAt off) t := by
  cases h with
  | write off' v' rest hq' =>
    obtain ⟨rfl, rfl⟩ : off' = off ∧ v' = v := by simpa [hq'] using hq
    exact ⟨rest, hostWrite_written _ _ _⟩
  | _ => simp_all

/-- No write moves what only commands write (10_state.md R45). -/
theorem Written.frame {s t : State} {v : Word} {r : Reg} (h : Written s v r t) :
    t.h = s.h ∧ t.kblk = s.kblk ∧ t.count = s.count ∧ t.phase = s.phase ∧ t.algl = s.algl ∧ t.hmacm = s.hmacm := by
  cases h <;> simp

/-- Which register a write went to, when it moved an element the host may write. -/
theorem Written.reg_of_ne {s t : State} {v : Word} {r : Reg} (h : Written s v r t) :
    (t.blk ≠ s.blk → ∃ i, r = .block i) ∧ (t.keyBuf ≠ s.keyBuf → ∃ i, r = .key i) ∧
    ((t.pend ≠ s.pend ∨ t.busy ≠ s.busy ∨ t.err ≠ s.err) → r = .cmd) := by
  cases h <;> simp

/-- A write clears OVR only at STATUS, with bit 1 set (10_state.md R34). -/
theorem Written.status_of_ovr_cleared {s t : State} {v : Word} {r : Reg} (h : Written s v r t) (hs : s.ovr = true)
    (ht : t.ovr = false) : r = .status ∧ v.getLsbD 1 = true := by
  cases h with
  | cleared hv => exact ⟨rfl, hv⟩
  | _ => simp_all

/-- A write sets OVR only when it is dropped (20_memory.md R56). -/
theorem Written.dropped_of_ovr_set {s t : State} {v : Word} {r : Reg} (h : Written s v r t) (hs : s.ovr = false)
    (ht : t.ovr = true) : s.busy = true ∧ (r = .cmd ∨ (∃ i, r = .block i) ∨ ∃ i, r = .key i) := by
  cases h with
  | dropped _ hb hr => exact ⟨hb, hr⟩
  | _ => simp_all

/-- While BUSY = 1 a write to CMD, BLOCK or KEY is dropped and leaves OVR set (20_memory.md R56). -/
theorem Written.ovr_of_busy {s t : State} {v : Word} {r : Reg} (h : Written s v r t) (hb : s.busy = true)
    (hr : r = .cmd ∨ (∃ i, r = .block i) ∨ ∃ i, r = .key i) : t.ovr = true := by
  cases h with
  | dropped => rfl
  | _ => simp_all

/-- The engine's step leaves OVR alone, whether its command ends in an error or completes. -/
theorem engineStep_ovr {s t : State} (h : engineStep s = .next t) : t.ovr = s.ovr := by
  obtain ⟨c, -, rfl⟩ | ⟨i, -, hc⟩ := engineStep_next h
  · rfl
  · obtain ⟨-, -, hovr, -⟩ := hc.frame
    exact hovr

/-! ### The obligations of 10_state.md -/

/-- Settles O51: each element by the definition of the reset state, the two reads as exact reads. -/
theorem resetValues : Obligations.ResetValues :=
  have hs : State.reset.HostTurn := ⟨rfl, rfl⟩
  ⟨rfl, rfl, rfl, rfl, rfl, rfl, rfl, rfl, rfl, rfl, rfl, rfl,
    reads_exact (off := 0x08) hs (by decide) (by decide) (.inr rfl),
    reads_exact (off := 0x00) hs (by decide) (by decide) (.inr rfl)⟩

/-- Settles O59: the reset state is idle, in FRESH, with COUNT and H at 0. -/
theorem resetMeetsInvariant : Obligations.ResetMeetsInvariant where
  busyNoError := nofun
  countAligned := nofun
  freshIsReset := fun _ => ⟨rfl, rfl, rfl, rfl, rfl⟩
  sha1UpperZero := fun _ => ⟨rfl, rfl, rfl⟩
  hmacCounted := nofun
  idleNoSlack := fun _ => rfl

/-- Settles O24: ID is read exactly at every time, and ignores writes. -/
theorem idAlwaysReadsItsConstant : Obligations.IdAlwaysReadsItsConstant := by
  intro s hs
  exact ⟨reads_exact (off := 0x00) hs (by decide) (by decide) (.inr rfl),
    fun v => writes_ignored hs (by decide) (by decide) fun _ => rfl⟩

/-- Settles O25: STATUS is read exactly at every time, its fields are those of `statusWord`, and a write does at most one thing. -/
theorem statusRegister : Obligations.StatusRegister := by
  refine ⟨reads_exact (off := 0x08) ⟨rfl, rfl⟩ (by decide) (by decide) (.inr rfl), fun s hs => ⟨fun v => ?_, ?_⟩⟩
  · refine writes_hostWrite hs (by decide) (by decide) fun rest => ?_
    cases hv : v.getLsbD 1 <;> simp only [regAt_status, hostWrite, hv] <;> constructor <;> rfl
  · obtain ⟨hbusy, hovr, hres2, herr, hphase, hres10, halg, hhmacm, hres14⟩ := statusWord_fields s
    refine ⟨statusWord s, reads_exact (off := 0x08) hs (by decide) (by decide) (.inr rfl), hbusy, hovr, hres2,
      herr.trans ?_, hphase.trans ?_, hres10, halg.trans ?_, hhmacm, hres14⟩
    · cases s.err <;> rfl
    · cases s.phase <;> rfl
    · cases s.algl <;> rfl

/-- Settles O26: the halves of COUNT as numbers; COUNT < 2^61 leaves the top three bits 0. -/
theorem countIsReadInTwoHalves : Obligations.CountIsReadInTwoHalves := by
  intro s hs
  refine ⟨fun hb => ⟨_, _, reads_exact (off := 0x10) hs (by decide) (by decide) (.inl hb),
    reads_exact (off := 0x14) hs (by decide) (by decide) (.inl hb), ?_, extractLsb'_of_toNat (n := 0) ?_⟩,
    fun v => ⟨writes_ignored hs (by decide) (by decide) fun _ => rfl,
      writes_ignored hs (by decide) (by decide) fun _ => rfl⟩⟩
  all_goals
    have := s.count.isLt
    simp only [regAt_countLo, regAt_countHi, readReg, BitVec.extractLsb'_toNat, BitVec.toNat_setWidth,
      Nat.shiftRight_eq_div_pow]
    omega

/-- Settles O27: the register at 0xC0 + 4i is DIGEST[i], read exactly while idle and never written. -/
theorem digestRegistersReadH : Obligations.DigestRegistersReadH := by
  intro s i hs
  have ha : (0xC0 + 4 * i.val) % 4 = 0 := by omega
  have ho : 0xC0 + 4 * i.val < 0x100 := by omega
  refine ⟨fun hb => ?_, fun v => writes_ignored hs ha ho fun u => by rw [regAt_digest]; rfl⟩
  have hread := reads_exact hs ha ho (.inl hb)
  rwa [regAt_digest] at hread

/-- Settles O36: a completed read returns its register's value, and no register shows KBLK. -/
theorem keyLatchIsHidden : Obligations.KeyLatchIsHidden := by
  intro s k off v hs hb hread
  obtain ⟨ha, ho, rfl⟩ := (reads_iff hs).1 hread
  refine (reads_iff (s := { s with kblk := k }) hs).2 ⟨ha, ho, ?_⟩
  rw [hostRead_exact (.inl hb), hostRead_exact (s := { s with kblk := k }) (.inl hb)]
  exact (readReg_kblk s k (regAt off)).symm

/-- Settles O34: an error writes only ERR and BUSY, and a completed command keeps its frame. -/
theorem commandFrame : Obligations.CommandFrame := by
  intro i s t h
  obtain ⟨c, -, rfl⟩ | hc := exec_next h
  · simp
  · obtain ⟨hkey, hpend, hovr, hrst, hslack, hinbox, hreply⟩ := hc.frame
    refine ⟨hkey, hpend, hovr, hrst, hslack, hinbox, hreply, fun hne => ?_, ?_⟩
    · cases hc with
      | hmacInit alg k => exact absurd rfl (hne alg k)
      | _ => rfl
    · rintro ⟨alg, rfl⟩
      cases hc
      rfl

/-- Settles O33: only a write moves a state element here, and the register it goes to says which. -/
theorem hostWritesOnlyItsElements : Obligations.HostWritesOnlyItsElements := by
  intro s t he hrelease h
  obtain hcore | ⟨-, hq, -⟩ | ⟨off, v, rest, hq, hw⟩ := (hostStep_of_step he h).core_cases
  · exact ⟨hcore.h, hcore.kblk, hcore.count, hcore.phase, hcore.algl, hcore.hmacm, absurd hcore.blk,
      absurd hcore.keyBuf, by simp [hcore.pend, hcore.busy, hcore.err]⟩
  · exact absurd hq hrelease
  · obtain ⟨hh, hkblk, hcount, hphase, halgl, hhmacm⟩ := hw.frame
    obtain ⟨hblk, hkey, hcmd⟩ := hw.reg_of_ne
    obtain ⟨atCmd, -, atBlock, atKey⟩ := regAt_cases off
    refine ⟨hh, hkblk, hcount, hphase, halgl, hhmacm, fun hne => ?_, fun hne => ?_, fun hne => ?_⟩
    · obtain ⟨i, hi⟩ := hblk hne
      exact ⟨off, v, hq, atBlock i hi⟩
    · obtain ⟨i, hi⟩ := hkey hne
      exact ⟨off, v, hq, atKey i hi⟩
    · exact ⟨v, by rw [hq, atCmd (hcmd hne)]⟩

/-- Settles O22: OVR moves only by a write or by the release of reset, and a dropped write always leaves it set. -/
theorem ovrIsSticky : Obligations.OvrIsSticky := by
  intro s t h
  by_cases he : s.engineTurn = true
  · have hovr : t.ovr = s.ovr := engineStep_ovr (by rwa [step_engine he] at h)
    refine ⟨fun hset hcleared => ?_, fun hclear hset => ?_, fun hturn => ?_⟩
    · simp [hovr, hset] at hcleared
    · simp [hovr, hclear] at hset
    · exact absurd he (by simp [hturn.1])
  rw [Bool.not_eq_true] at he
  have hs := hostStep_of_step he h
  refine ⟨fun hset hcleared => ?_, fun hclear hset => ?_, fun hturn hbusy => ?_⟩
  · obtain hcore | ⟨hr, hq, -⟩ | ⟨off, v, rest, hq, hw⟩ := hs.core_cases
    · simp [hcore.ovr, hset] at hcleared
    · exact .inr ⟨hr, hq⟩
    · obtain ⟨hreg, hv⟩ := hw.status_of_ovr_cleared hset hcleared
      obtain ⟨-, atStatus, -⟩ := regAt_cases off
      exact .inl ⟨he, v, hv, by rw [hq, atStatus hreg]⟩
  · obtain hcore | ⟨-, -, rest, rfl⟩ | ⟨off, v, rest, hq, hw⟩ := hs.core_cases
    · simp [hcore.ovr, hclear] at hset
    · simp [State.reset] at hset
    · obtain ⟨hbusy, hreg⟩ := hw.dropped_of_ovr_set hclear hset
      exact ⟨he, hbusy, off, v, hq, (regAt_cmd_or_buffer_iff off).1 hreg⟩
  · rintro ⟨off, v, hq, hoff⟩
    obtain ⟨rest, hw⟩ := hs.written hturn.2 hq
    exact hw.ovr_of_busy hbusy ((regAt_cmd_or_buffer_iff off).2 hoff)

end Sys2Proof.Machine

/-! What the accesses of 20_memory.md do to the buffers, the reserved offsets and a busy core, and which of them stop the
machine. -/

namespace Sys2Proof.Machine

open Sys2Proof

/-! ### Where a step stops -/

/-- The host's oldest operation is an access that 20_memory.md R52 refuses. -/
def State.RefusedAccess (s : State) (off width : Nat) : Prop :=
  permitted off width = false ∧
    (s.inbox.head? = some (.read off width) ∨ ∃ v, s.inbox.head? = some (.write off width v))

theorem permitted_eq_false_iff {off width : Nat} :
    permitted off width = false ↔ width ≠ 4 ∨ off % 4 ≠ 0 ∨ 0x100 ≤ off := by
  rw [← Bool.not_eq_true, permitted_iff]
  omega

/-- The engine's step never stops the machine: an error, of a reserved opcode too, is a next state. -/
theorem engineStep_total (s : State) : ∃ t, engineStep s = .next t := by
  unfold engineStep
  split
  · next i _ =>
    obtain ⟨c, -, h⟩ | ⟨t, h, -⟩ := exec_cases i s
    · exact ⟨_, h⟩
    · exact ⟨t, h⟩
  · exact ⟨_, rfl⟩

theorem step_refusedAccess {s : State} {off width : Nat} (hs : s.HostTurn) (h : s.RefusedAccess off width) :
    step s = .fault (.badAccess off width) := by
  obtain ⟨he, hr⟩ := hs
  obtain ⟨hp, hq | ⟨v, hq⟩⟩ := h
  · obtain ⟨rest, hq⟩ := List.head?_eq_some_iff.1 hq
    simp [step, he, hostTurn, hq, hr, performRead, hp]
  · obtain ⟨rest, hq⟩ := List.head?_eq_some_iff.1 hq
    simp [step, he, hostTurn, hq, hr, performWrite, hp]

/-- In the host's turn with no refused access due, each kind of operation answers a next state. -/
theorem step_total_of_no_refusedAccess {s : State} (hs : s.HostTurn) (h : ∀ off width, ¬ s.RefusedAccess off width) :
    ∃ t, step s = .next t := by
  obtain ⟨he, hr⟩ := hs
  cases hq : s.inbox with
  | nil => exact ⟨_, step_idle he hq⟩
  | cons op rest =>
    cases op with
    | read off width =>
      have hp : permitted off width = true :=
        eq_true_of_ne_false fun hp => h off width ⟨hp, .inl (by rw [hq]; rfl)⟩
      exact ⟨_, step_read he hr hq hp⟩
    | write off width v =>
      have hp : permitted off width = true :=
        eq_true_of_ne_false fun hp => h off width ⟨hp, .inr ⟨v, by rw [hq]; rfl⟩⟩
      exact ⟨_, step_write he hr hq hp⟩
    | wait => exact ⟨_, step_wait he hr hq⟩
    | resetInput asserted =>
      cases asserted with
      | true => exact ⟨_, step_assertReset he hq⟩
      | false => exact ⟨s.turn rest none, by simp [step, he, hostTurn, hq, hr]⟩

/-- With reset asserted every queued operation is used up (70_reset_and_hazards.md R270; log entry 6). -/
theorem step_total_inReset {s : State} (hr : s.rst = true) : ∃ t, step s = .next t := by
  have he : s.engineTurn = false := by simp [State.engineTurn, hr]
  cases hq : s.inbox with
  | nil => exact ⟨_, step_idle he hq⟩
  | cons op rest =>
    cases op with
    | resetInput asserted =>
      cases asserted with
      | true => exact ⟨_, step_assertReset he hq⟩
      | false => exact ⟨_, step_releaseReset hr hq⟩
    | _ => exact ⟨_, step_inReset hr hq (by simp)⟩

/-- A step answers a next state, or it is the host's turn and meets a refused access. -/
theorem step_next_or_refusedAccess (s : State) :
    (∃ t, step s = .next t) ∨ (s.HostTurn ∧ ∃ off width, s.RefusedAccess off width) := by
  cases he : s.engineTurn with
  | true => exact .inl (by simpa [step_engine he] using engineStep_total s)
  | false =>
    cases hr : s.rst with
    | true => exact .inl (step_total_inReset hr)
    | false =>
      by_cases h : ∃ off width, s.RefusedAccess off width
      · exact .inr ⟨⟨he, hr⟩, h⟩
      · exact .inl (step_total_of_no_refusedAccess ⟨he, hr⟩ fun off width hbad => h ⟨off, width, hbad⟩)

/-! ### The bytes of a buffer register -/

/-- The bytes of register i take the bytes of `be32_encode(v)`. -/
theorem getElem_bufWrite_own (buf : Vector Byte 64) (i : Fin 16) (v : Word) (k : Fin 4) :
    (bufWrite buf i v)[4 * i.val + k.val] = wordByte v k := by
  fin_cases k <;> simp [bufWrite]

/-- The bytes of the other registers stay. -/
theorem getElem_bufWrite_other (buf : Vector Byte 64) {i : Fin 16} {j : Nat} (v : Word) (hj : j < 64) (h : j / 4 ≠ i.val) :
    (bufWrite buf i v)[j] = buf[j] := by
  have hne : 4 * i.val ≠ j ∧ 4 * i.val + 1 ≠ j ∧ 4 * i.val + 2 ≠ j ∧ 4 * i.val + 3 ≠ j := by omega
  simp [bufWrite, hne]

theorem getElem?_be32Encode (v : Word) (k : Fin 4) : (be32Encode v)[k.val]? = some (wordByte v k) := by
  fin_cases k <;> rfl

/-- Every byte of a buffer after a write of register i (20_memory.md R55). -/
theorem getElem_bufWrite (buf : Vector Byte 64) (i : Fin 16) (v : Word) (j : Fin 64) :
    some (bufWrite buf i v)[j.val] =
      if j.val / 4 = i.val then (be32Encode v)[j.val % 4]? else some buf[j.val] := by
  split
  · next h =>
    have hj : j.val = 4 * i.val + j.val % 4 := by omega
    have hown := getElem_bufWrite_own buf i v ⟨j.val % 4, Nat.mod_lt _ (by decide)⟩
    have henc := getElem?_be32Encode v ⟨j.val % 4, Nat.mod_lt _ (by decide)⟩
    simp only [← hj] at hown
    exact (congrArg some hown).trans henc.symm
  · next h => rw [getElem_bufWrite_other buf v j.isLt h]

/-! ### Accesses by what the window does with them -/

/-- While BUSY = 1 a write to CMD, BLOCK or KEY only sets OVR (20_memory.md R56). -/
theorem writes_dropped {s : State} {off : Nat} (v : Word) (hs : s.HostTurn) (hb : s.busy = true) (ha : off % 4 = 0)
    (hoff : off = 0x04 ∨ (0x40 ≤ off ∧ off < 0xC0)) : s.Writes off v { s with ovr := true } := by
  refine writes_hostWrite hs ha (by omega) fun rest => ?_
  have hdrop : hostWrite (s.turn rest none) (regAt off) v = (s.turn rest none).dropWrite := by
    obtain h | ⟨i, h⟩ | ⟨i, h⟩ := (regAt_cmd_or_buffer_iff off).2 hoff <;> simp [h, hostWrite, hb]
  rw [hdrop]
  constructor <;> rfl

theorem hostRead_rst (s : State) (r : Reg) : (hostRead s r).2.rst = s.rst := by
  obtain h | h := hostRead_cases s r <;> rw [h]

/-- A read taken off the queue, performed or used up in reset, moves only the host's side. -/
theorem HostStep.of_read {s t : State} {off width : Nat} {rest : List HostOp} (h : HostStep s t)
    (hq : s.inbox = .read off width :: rest) : s.SameCore t ∧ t.inbox = rest ∧ t.rst = s.rst := by
  cases h with
  | read off' rest' hq' =>
    obtain ⟨-, rfl⟩ := List.cons.inj (hq'.symm.trans hq)
    exact ⟨(hostRead_sameCore s _).trans (turn_sameCore _ _ _), rfl, hostRead_rst s _⟩
  | inReset op rest' hq' =>
    obtain ⟨-, rfl⟩ := List.cons.inj (hq'.symm.trans hq)
    exact ⟨turn_sameCore _ _ _, rfl, rfl⟩
  | _ => simp_all

/-- While BUSY = 1 no write moves the operands of the running command (20_memory.md R56). -/
theorem Written.operands_of_busy {s t : State} {v : Word} {r : Reg} (h : Written s v r t) (hb : s.busy = true) :
    t.blk = s.blk ∧ t.keyBuf = s.keyBuf ∧ t.pend = s.pend ∧ t.busy = true := by
  cases h <;> simp_all

/-! ### The obligations of 20_memory.md -/

/-- Settles O21: a refused access in the host's turn faults, and every other step answers a next state. -/
theorem machineStopsOnlyOnBadAccess : Obligations.MachineStopsOnlyOnBadAccess := by
  refine ⟨fun s f => ⟨fun h => ?_, ?_⟩, fun s r h => ?_⟩
  · obtain ⟨t, hnext⟩ | ⟨hs, off, width, hbad⟩ := step_next_or_refusedAccess s
    · simp [hnext] at h
    · obtain rfl : .badAccess off width = f := by simpa [step_refusedAccess hs hbad] using h
      exact ⟨hs, off, width, rfl, permitted_eq_false_iff.1 hbad.1, hbad.2⟩
  · rintro ⟨hs, off, width, rfl, hp, hq⟩
    exact step_refusedAccess hs ⟨permitted_eq_false_iff.2 hp, hq⟩
  · obtain ⟨t, hnext⟩ | ⟨hs, off, width, hbad⟩ := step_next_or_refusedAccess s
    · simp [hnext] at h
    · simp [step_refusedAccess hs hbad] at h

/-- Settles O28: while idle each buffer register is read exactly, as its buffer's word. -/
theorem bufferRegistersReadBigEndian : Obligations.BufferRegistersReadBigEndian := by
  intro s i hs hb
  have hblock := reads_exact (off := 0x40 + 4 * i.val) hs (by omega) (by omega) (.inl hb)
  have hkey := reads_exact (off := 0x80 + 4 * i.val) hs (by omega) (by omega) (.inl hb)
  rw [regAt_block] at hblock
  rw [regAt_key] at hkey
  exact ⟨hblock, hkey⟩

/-- Settles O29: while idle the write is `bufWrite` on the register's buffer, whose bytes `getElem_bufWrite` gives. -/
theorem bufferRegisterWritesOwnBytes : Obligations.BufferRegisterWritesOwnBytes := by
  intro s i v hs hb
  refine ⟨⟨bufWrite s.blk i v, ?_, getElem_bufWrite s.blk i v⟩,
    ⟨bufWrite s.keyBuf i v, ?_, getElem_bufWrite s.keyBuf i v⟩⟩
  · refine writes_hostWrite hs (by omega) (by omega) fun rest => ?_
    simp only [regAt_block, hostWrite, turn_busy, hb]
    constructor <;> rfl
  · refine writes_hostWrite hs (by omega) (by omega) fun rest => ?_
    simp only [regAt_key, hostWrite, turn_busy, hb]
    constructor <;> rfl

/-- Settles O30: CMD is read exactly while idle, and the reserved offsets at every time; no write moves a reserved register. -/
theorem reservedOffsetsReadZero : Obligations.ReservedOffsetsReadZero := by
  intro s hs
  refine ⟨fun hb => reads_exact (off := 0x04) hs (by decide) (by decide) (.inl hb), fun off ha hoff => ?_⟩
  have hreg := regAt_reserved hoff
  have ho : off < 0x100 := by omega
  refine ⟨?_, fun v => writes_ignored hs ha ho fun u => by rw [hreg]; rfl⟩
  have hread := reads_exact hs ha ho (.inr (by rw [hreg]; rfl))
  rwa [hreg] at hread

/-- Settles O31: the buffers' registers drop writes while busy, and a permitted read returns what `hostRead` gives. -/
theorem busyAccesses : Obligations.BusyAccesses := by
  intro s hs hb
  refine ⟨fun i v => ⟨writes_dropped v hs hb (by omega) (by omega), writes_dropped v hs hb (by omega) (by omega)⟩,
    fun off rest ha ho => ?_⟩
  obtain ⟨t, hstep, hreply, hinbox, hcore⟩ := reads_hostRead hs ha ho rest
  exact ⟨t, _, hstep, hreply, hinbox, hcore⟩

/-- Settles O32: the host's turn on a read is a performed read or one used up in reset. -/
theorem readsHaveNoSideEffects : Obligations.ReadsHaveNoSideEffects :=
  fun _ _ _ _ _ he hq h => (hostStep_of_step he h).of_read hq

/-- Settles O35: the host's turn moves no state element, or releases reset, or makes one write, dropped where it matters. -/
theorem operandsAreHeldWhileBusy : Obligations.OperandsAreHeldWhileBusy := by
  intro s t hb he hrelease h
  obtain hcore | ⟨-, hq, -⟩ | ⟨off, v, rest, -, hw⟩ := (hostStep_of_step he h).core_cases
  · exact ⟨hcore.blk, hcore.keyBuf, hcore.pend, hcore.busy.trans hb⟩
  · exact absurd hq hrelease
  · exact hw.operands_of_busy hb

end Sys2Proof.Machine

/-! How the fields of a command word make the command, and what a word and its command determine of each other
(30_encoding.md). -/

namespace Sys2Proof.Machine

open Sys2Proof

/-! ### The command of each opcode -/

theorem decode_of_opField_one {w : Word} (h : opField w = 1) : decode w = .ok (.init (algField w)) := by
  simp [decode, h]

theorem decode_of_opField_two {w : Word} (h : opField w = 2) : decode w = .ok .block := by
  simp [decode, h]

theorem decode_of_opField_three {w : Word} (h : opField w = 3) : decode w = .ok (.final (lenField w)) := by
  simp [decode, h]

theorem decode_of_opField_four {w : Word} (h : opField w = 4) :
    decode w = .ok (.hmacInit (algField w) (lenField w)) := by
  simp [decode, h]

/-- A word's command, or its rejection, depends on its three fields only. -/
theorem decode_congr {v w : Word} (hop : opField v = opField w) (halg : algField v = algField w)
    (hlen : lenField v = lenField w) : decode v = decode w := by
  unfold decode
  rw [hop, halg, hlen]

/-! ### The fields of a masked word -/

/-- A field that lies in the mask is kept. -/
theorem extractLsb'_and_of_allOnes {m : Word} {start len : Nat} (h : m.extractLsb' start len = BitVec.allOnes len)
    (w : Word) : (w &&& m).extractLsb' start len = w.extractLsb' start len := by
  rw [BitVec.extractLsb'_and, h, BitVec.and_allOnes]

/-- A field that lies outside the mask is cleared. -/
theorem extractLsb'_and_of_zero {m : Word} {start len : Nat} (h : m.extractLsb' start len = 0#len) (w : Word) :
    (w &&& m).extractLsb' start len = 0#len := by
  rw [BitVec.extractLsb'_and, h, BitVec.and_zero]

theorem opField_and_of_allOnes {m : Word} (h : m.extractLsb' 0 4 = BitVec.allOnes 4) (w : Word) :
    opField (w &&& m) = opField w :=
  congrArg BitVec.toNat (extractLsb'_and_of_allOnes h w)

theorem algField_and_of_allOnes {m : Word} (h : m.extractLsb' 4 2 = BitVec.allOnes 2) (w : Word) :
    algField (w &&& m) = algField w :=
  congrArg BitVec.toNat (extractLsb'_and_of_allOnes h w)

theorem algField_and_of_zero {m : Word} (h : m.extractLsb' 4 2 = 0#2) (w : Word) : algField (w &&& m) = 0 :=
  congrArg BitVec.toNat (extractLsb'_and_of_zero h w)

theorem lenField_and_of_allOnes {m : Word} (h : m.extractLsb' 8 7 = BitVec.allOnes 7) (w : Word) :
    lenField (w &&& m) = lenField w :=
  congrArg BitVec.toNat (extractLsb'_and_of_allOnes h w)

theorem lenField_and_of_zero {m : Word} (h : m.extractLsb' 8 7 = 0#7) (w : Word) : lenField (w &&& m) = 0 :=
  congrArg BitVec.toNat (extractLsb'_and_of_zero h w)

/-- A word whose bits 7:6 and 31:15 are 0 is the command word of its fields (30_encoding.md R81). -/
theorem commandWord_fields {w : Word} (h6 : w.extractLsb' 6 2 = 0#2) (h15 : w.extractLsb' 15 17 = 0#17) :
    commandWord (opField w) (algField w) (lenField w) = w := by
  have h6' := congrArg BitVec.toNat h6
  have h15' := congrArg BitVec.toNat h15
  have hw := w.isLt
  apply BitVec.eq_of_toNat_eq
  simp only [opField, algField, lenField, commandWord, BitVec.extractLsb'_toNat, BitVec.toNat_ofNat,
    Nat.shiftRight_eq_div_pow] at h6' h15' ⊢
  omega

/-- A word masked with bits that no more than the three fields hold, OP among them, is the command word of its fields. -/
theorem commandWord_fields_and {m : Word} (h0 : m.extractLsb' 0 4 = BitVec.allOnes 4) (h6 : m.extractLsb' 6 2 = 0#2)
    (h15 : m.extractLsb' 15 17 = 0#17) (w : Word) :
    commandWord (opField w) (algField (w &&& m)) (lenField (w &&& m)) = w &&& m := by
  have h := commandWord_fields (extractLsb'_and_of_zero h6 w) (extractLsb'_and_of_zero h15 w)
  rwa [opField_and_of_allOnes h0] at h

/-! ### Words equal on the bits of a mask have equal fields there -/

section congruence

variable {v w m : Word} (h : v &&& m = w &&& m)

include h

theorem opField_congr (hm : m.extractLsb' 0 4 = BitVec.allOnes 4) : opField v = opField w := by
  rw [← opField_and_of_allOnes hm v, h, opField_and_of_allOnes hm]

theorem algField_congr (hm : m.extractLsb' 4 2 = BitVec.allOnes 2) : algField v = algField w := by
  rw [← algField_and_of_allOnes hm v, h, algField_and_of_allOnes hm]

theorem lenField_congr (hm : m.extractLsb' 8 7 = BitVec.allOnes 7) : lenField v = lenField w := by
  rw [← lenField_and_of_allOnes hm v, h, lenField_and_of_allOnes hm]

end congruence

/-! ### Decoding and encoding are inverse up to the ignored bits -/

/-- The decoder reads a command back from its word, whose fields are those it was written from. -/
theorem decode_encode {i : Instr} (h : WellFormed i) : decode (encode i) = .ok i := by
  cases i with
  | init alg =>
    obtain ⟨hop, halg, -⟩ := fields_commandWord (op := 1) (len := 0) (by decide) (wellFormed_init.1 h) (by decide)
    rw [encode, decode_of_opField_one hop, halg]
  | block =>
    obtain ⟨hop, -, -⟩ := fields_commandWord (op := 2) (alg := 0) (len := 0) (by decide) (by decide) (by decide)
    rw [encode, decode_of_opField_two hop]
  | final len =>
    obtain ⟨hop, -, hlen⟩ := fields_commandWord (op := 3) (alg := 0) (by decide) (by decide) (wellFormed_final.1 h)
    rw [encode, decode_of_opField_three hop, hlen]
  | hmacInit alg len =>
    obtain ⟨ha, hl⟩ := wellFormed_hmacInit.1 h
    obtain ⟨hop, halg, hlen⟩ := fields_commandWord (op := 4) (by decide) ha hl
    rw [encode, decode_of_opField_four hop, halg, hlen]

theorem wellFormed_of_decode {w : Word} {i : Instr} (h : decode w = .ok i) : WellFormed i := by
  obtain ⟨-, rfl⟩ | ⟨-, rfl⟩ | ⟨-, rfl⟩ | ⟨-, rfl⟩ := decode_cases h
  · exact wellFormed_init.2 (algField_lt w)
  · exact wellFormed_block.2 trivial
  · exact wellFormed_final.2 (lenField_lt w)
  · exact wellFormed_hmacInit.2 ⟨algField_lt w, lenField_lt w⟩

/-- Encoding what a word decodes to keeps the bits its opcode reads and clears the others (30_encoding.md R85). -/
theorem encode_of_decode {w : Word} {i : Instr} (h : decode w = .ok i) : encode i = w &&& i.readBits := by
  obtain ⟨hop, rfl⟩ | ⟨hop, rfl⟩ | ⟨hop, rfl⟩ | ⟨hop, rfl⟩ := decode_cases h
  · rw [Instr.readBits, ← commandWord_fields_and rfl rfl rfl, hop, algField_and_of_allOnes rfl, lenField_and_of_zero rfl,
      encode]
  · rw [Instr.readBits, ← commandWord_fields_and rfl rfl rfl, hop, algField_and_of_zero rfl, lenField_and_of_zero rfl,
      encode]
  · rw [Instr.readBits, ← commandWord_fields_and rfl rfl rfl, hop, algField_and_of_zero rfl, lenField_and_of_allOnes rfl,
      encode]
  · rw [Instr.readBits, ← commandWord_fields_and rfl rfl rfl, hop, algField_and_of_allOnes rfl, lenField_and_of_allOnes rfl,
      encode]

/-- A word that agrees with a command's word on the bits the command reads decodes to that command (30_encoding.md R85). -/
theorem decode_of_and_readBits_eq {v w : Word} {i : Instr} (h : decode w = .ok i)
    (hvw : v &&& i.readBits = w &&& i.readBits) : decode v = .ok i := by
  obtain ⟨hop, rfl⟩ | ⟨hop, rfl⟩ | ⟨hop, rfl⟩ | ⟨hop, rfl⟩ := decode_cases h <;> rw [Instr.readBits] at hvw
  · rw [decode_of_opField_one ((opField_congr hvw rfl).trans hop), algField_congr hvw rfl]
  · rw [decode_of_opField_two ((opField_congr hvw rfl).trans hop)]
  · rw [decode_of_opField_three ((opField_congr hvw rfl).trans hop), lenField_congr hvw rfl]
  · rw [decode_of_opField_four ((opField_congr hvw rfl).trans hop), algField_congr hvw rfl, lenField_congr hvw rfl]

/-! ### The obligations on command words of 30_encoding.md -/

/-- Settles O2: the fields of a command's word are read back one by one. -/
theorem decodeOfEncodeIsTheCommand : Obligations.DecodeOfEncodeIsTheCommand :=
  fun _ h => decode_encode h

/-- Settles O3: the bits a command reads are exactly its fields, and the rest of its word is 0. -/
theorem encodeOfDecodeClearsIgnoredBits : Obligations.EncodeOfDecodeClearsIgnoredBits :=
  fun _ _ h => ⟨wellFormed_of_decode h, encode_of_decode h⟩

/-- Settles O4: the mask 0x7F3F holds all three fields, and the other masks are the bits their command reads. -/
theorem ignoredBitsDoNotChangeTheCommand : Obligations.IgnoredBitsDoNotChangeTheCommand := by
  refine ⟨fun w v h => ?_, fun w v alg hw h => ?_, fun w v hw h => ?_, fun w v n hw h => ?_⟩
  · exact decode_congr (opField_congr h rfl) (algField_congr h rfl) (lenField_congr h rfl)
  · exact (decode_of_and_readBits_eq (i := .init alg) hw h).trans hw.symm
  · exact (decode_of_and_readBits_eq (i := .block) hw h).trans hw.symm
  · exact (decode_of_and_readBits_eq (i := .final n) hw h).trans hw.symm

/-- Settles O1: each worked word is written by `encode`, and `decode` reads every such word back. -/
theorem workedEncodingsDecode : Obligations.WorkedEncodingsDecode :=
  ⟨⟨decode_encode (i := .init 0) (by decide), rfl⟩, ⟨decode_encode (i := .init 1) (by decide), rfl⟩,
    ⟨decode_encode (i := .block) (by decide), rfl⟩, ⟨decode_encode (i := .final 3) (by decide), rfl⟩,
    ⟨decode_encode (i := .final 0) (by decide), rfl⟩, ⟨decode_encode (i := .final 43) (by decide), rfl⟩,
    ⟨decode_encode (i := .hmacInit 1 20) (by decide), rfl⟩, ⟨decode_encode (i := .hmacInit 0 64) (by decide), rfl⟩⟩

/-! ### Reserved opcodes: accepted, then rejected by the engine -/

/-- A command word written while BUSY = 0 is accepted, whatever its opcode (44_driver.md R200). -/
theorem writes_accepted {s : State} (v : Word) (hs : s.HostTurn) (hb : s.busy = false) :
    s.Writes 0x04 v { s with pend := v, err := .none, busy := true } := by
  refine writes_hostWrite hs (by decide) (by decide) fun rest => ?_
  have hacc : hostWrite (s.turn rest none) (regAt 0x04) v = (s.turn rest none).accept v :=
    if_neg (by simp [hb])
  rw [hacc]
  constructor <;> rfl

/-- Settles O5: acceptance does not look at the opcode, and the engine rejects a reserved one. -/
theorem reservedOpcodeEndsInIllegalCommand : Obligations.ReservedOpcodeEndsInIllegalCommand := by
  refine ⟨fun s v hs hb _ => writes_accepted v hs hb, fun s he hop => ?_⟩
  rw [step_engine he, engineStep, decode_reserved hop]
  rfl

end Sys2Proof.Machine

/-! The host's pseudo-instructions of 30_encoding.md R89 run turn by turn: LOADBLK and LOADKEY, and the WAIT loop. -/

namespace Sys2Proof.Machine

open Sys2Proof

/-! ### A buffer written register by register -/

/-- Encoding the word of four bytes gives the bytes: each bit of a byte is a bit of one shifted byte (40_codec.md R100, R101). -/
theorem be32Encode_be32Decode (b0 b1 b2 b3 : Byte) : be32Encode (be32Decode b0 b1 b2 b3) = [b0, b1, b2, b3] := by
  simp only [be32Encode, wordByte, be32Decode, List.cons.injEq, and_true]
  refine ⟨?_, ?_, ?_, ?_⟩ <;> ext j hj <;> grind

/-- The bytes of a register's word are the register's four bytes. -/
theorem getElem?_be32Encode_bufWord (src : Vector Byte 64) (j : Fin 64) {i : Fin 16} (h : j.val / 4 = i.val) :
    (be32Encode (bufWord src i))[j.val % 4]? = some src[j.val] := by
  obtain ⟨k, hk⟩ : ∃ k : Fin 4, j.val = 4 * i.val + k.val := ⟨⟨j.val % 4, by omega⟩, by simp only; omega⟩
  have hmod : j.val % 4 = k.val := by omega
  rw [bufWord, be32Encode_be32Decode, hmod]
  simp only [hk]
  fin_cases k <;> rfl

/-- Writing a register's word of `src` into `b` makes the register's own bytes those of `src` and keeps the others. -/
theorem getElem_bufWrite_bufWord (b src : Vector Byte 64) (i : Fin 16) (j : Fin 64) :
    (bufWrite b i (bufWord src i))[j.val] = if j.val / 4 = i.val then src[j.val] else b[j.val] := by
  apply Option.some.inj
  rw [getElem_bufWrite]
  split
  · next h => exact getElem?_be32Encode_bufWord src j h
  · rfl

/-- `b` after the words of `src` have been written to the registers `regs`, in that order. -/
def copyRegs (src : Vector Byte 64) (regs : List (Fin 16)) (b : Vector Byte 64) : Vector Byte 64 :=
  regs.foldl (fun b i => bufWrite b i (bufWord src i)) b

/-- A byte is copied if its register is among those written. -/
theorem getElem_copyRegs (src : Vector Byte 64) (regs : List (Fin 16)) (b : Vector Byte 64) (j : Fin 64) :
    (copyRegs src regs b)[j.val] = if ∃ i ∈ regs, j.val / 4 = i.val then src[j.val] else b[j.val] := by
  induction regs generalizing b with
  | nil => simp [copyRegs]
  | cons i regs ih =>
    have hcons : copyRegs src (i :: regs) b = copyRegs src regs (bufWrite b i (bufWord src i)) := rfl
    rw [hcons, ih, getElem_bufWrite_bufWord]
    by_cases hi : j.val / 4 = i.val <;> simp [hi]

/-- Writing all 16 registers replaces the whole buffer. -/
theorem copyRegs_finRange (src b : Vector Byte 64) : copyRegs src (List.finRange 16) b = src := by
  apply Vector.ext
  intro j hj
  have hreg : ∃ i ∈ List.finRange 16, j / 4 = i.val := ⟨⟨j / 4, by omega⟩, List.mem_finRange _, rfl⟩
  exact (getElem_copyRegs src _ b ⟨j, hj⟩).trans (if_pos hreg)

/-! ### LOADBLK and LOADKEY -/

/-- While reset is not asserted, a write to register i of the 16 at `base` changes the buffer `b` of the state elements `put b`,
and nothing else. -/
def WritesBuffer (base : Nat) (put : Vector Byte 64 → State) : Prop :=
  ∀ (u : State) (b : Vector Byte 64) (i : Fin 16) (v : Word) (rest : List HostOp), u.rst = false → (put b).SameCore u →
    u.inbox = asmWr (base + 4 * i.val) v :: rest →
    ∃ t, step u = .next t ∧ t.inbox = rest ∧ t.rst = false ∧ (put (bufWrite b i v)).SameCore t

theorem hostWrite_rst (s : State) (r : Reg) (v : Word) : (hostWrite s r v).rst = s.rst := by
  have h := hostWrite_written s r v
  generalize hostWrite s r v = t at h
  cases h <;> rfl

/-- While BUSY = 0 it is enough that `hostWrite` makes the change. -/
theorem writesBuffer_of_hostWrite {base : Nat} {put : Vector Byte 64 → State} (hbase : base % 4 = 0 ∧ base ≤ 0xC0)
    (hb : ∀ b, (put b).busy = false)
    (h : ∀ (u : State) (b : Vector Byte 64) (i : Fin 16) (v : Word), u.busy = false → (put b).SameCore u →
      (put (bufWrite b i v)).SameCore (hostWrite u (regAt (base + 4 * i.val)) v)) : WritesBuffer base put := by
  intro u b i v rest hr hu hq
  have hbusy : u.busy = false := hu.busy.trans (hb b)
  have he : u.engineTurn = false := by simp [State.engineTurn, hbusy]
  have hp : permitted (base + 4 * i.val) 4 = true := permitted_iff.2 ⟨rfl, by omega, by omega⟩
  exact ⟨_, step_write he hr hq hp, hostWrite_inbox _ _ _, (hostWrite_rst _ _ _).trans hr,
    h (u.turn rest none) b i v hbusy (hu.trans (turn_sameCore u rest none))⟩

theorem writesBuffer_blk {s : State} (hb : s.busy = false) : WritesBuffer 0x40 fun b => { s with blk := b } := by
  refine writesBuffer_of_hostWrite (by decide) (fun _ => hb) fun u b i v hbusy hu => ?_
  rw [regAt_block, hostWrite, if_neg (by simp [hbusy])]
  exact { hu with blk := by rw [hu.blk] }

theorem writesBuffer_keyBuf {s : State} (hb : s.busy = false) : WritesBuffer 0x80 fun b => { s with keyBuf := b } := by
  refine writesBuffer_of_hostWrite (by decide) (fun _ => hb) fun u b i v hbusy hu => ?_
  rw [regAt_key, hostWrite, if_neg (by simp [hbusy])]
  exact { hu with keyBuf := by rw [hu.keyBuf] }

/-- One host turn for each register written. -/
theorem WritesBuffer.run_regs {base : Nat} {put : Vector Byte 64 → State} (h : WritesBuffer base put) (src : Vector Byte 64)
    (regs : List (Fin 16)) (u : State) (b : Vector Byte 64) (rest : List HostOp) (hr : u.rst = false)
    (hu : (put b).SameCore u)
    (hq : u.inbox = regs.map (fun i => asmWr (base + 4 * i.val) (bufWord src i)) ++ rest) :
    ∃ t, run regs.length u = .next t ∧ t.inbox = rest ∧ t.rst = false ∧ (put (copyRegs src regs b)).SameCore t := by
  induction regs generalizing u b with
  | nil => exact ⟨u, run_zero u, hq, hr, hu⟩
  | cons i regs ih =>
    obtain ⟨t, hstep, hq', hr', ht⟩ := h u b i _ _ hr hu hq
    rw [List.length_cons, run_succ hstep]
    exact ih t (bufWrite b i (bufWord src i)) hr' ht hq'

/-- The 16 writes of a load leave the buffer holding the bytes loaded, zero-filled. -/
theorem WritesBuffer.run_asmLoad {base : Nat} {put : Vector Byte 64 → State} (h : WritesBuffer base put) (p : List Byte)
    {s : State} {b : Vector Byte 64} {rest : List HostOp} (hr : s.rst = false) (hs : (put b).SameCore s)
    (hq : s.inbox = asmLoad base p ++ rest) :
    ∃ t, run 16 s = .next t ∧ t.inbox = rest ∧ t.rst = false ∧ (put (zeroFill p)).SameCore t := by
  rw [asmLoad, List.ofFn_eq_map] at hq
  obtain ⟨t, hrun, hq', hr', ht⟩ := h.run_regs (zeroFill p) (List.finRange 16) s b rest hr hs hq
  rw [copyRegs_finRange] at ht
  exact ⟨t, by rwa [List.length_finRange] at hrun, hq', hr', ht⟩

/-- Settles O37: each load is 16 writes to its own buffer's registers. -/
theorem loadMacrosFillTheBuffers : Obligations.LoadMacrosFillTheBuffers := fun s p _ hb hr =>
  ⟨fun hq => (writesBuffer_blk hb).run_asmLoad p (b := s.blk) hr (.refl s) hq,
    fun hq => (writesBuffer_keyBuf hb).run_asmLoad p (b := s.keyBuf) hr (.refl s) hq⟩

/-! ### The WAIT loop -/

/-- A WAIT of the host's turn with BUSY = 0 ends the loop: it reads a STATUS value whose bit 0 is 0. -/
theorem step_wait_idle {s : State} {rest : List HostOp} (hr : s.rst = false) (hq : s.inbox = .wait :: rest)
    (hb : s.busy = false) : step s = .next (s.turn rest (some (statusWord s))) := by
  have he : s.engineTurn = false := by simp [State.engineTurn, hb]
  rw [step_wait he hr hq]
  simp [performWait, hb]

/-- A WAIT of the host's turn with BUSY = 1 stays at the head of the queue and brings the command one turn nearer its end. -/
theorem step_wait_busy {s : State} {rest : List HostOp} (he : s.engineTurn = false) (hr : s.rst = false)
    (hq : s.inbox = .wait :: rest) (hb : s.busy = true) :
    step s = .next (s.turn (.wait :: rest) (some (statusWord s))) := by
  rw [step_wait he hr hq]
  simp [performWait, hb]

/-- Every command the engine performs ends. -/
theorem engineStep_busy {s t : State} (h : engineStep s = .next t) : t.busy = false := by
  obtain ⟨c, -, rfl⟩ | ⟨i, -, hc⟩ := engineStep_next h
  · rfl
  · exact hc.busy

/-- With WAIT at the head of the queue a running command ends in `slack` turns of the loop and the engine's step. -/
theorem run_wait_busy {s : State} {rest : List HostOp} (hr : s.rst = false) (hq : s.inbox = .wait :: rest)
    (hb : s.busy = true) :
    ∃ t, run (s.slack + 1) s = .next t ∧ t.inbox = .wait :: rest ∧ t.rst = false ∧ t.busy = false := by
  induction hn : s.slack generalizing s with
  | zero =>
    obtain ⟨t, ht⟩ := engineStep_total s
    obtain ⟨hinbox, hrst, -, -⟩ := engineStep_hostSide ht
    have hstep : step s = .next t := (step_engine (engineTurn_iff.2 ⟨hb, hn, hr⟩)).trans ht
    exact ⟨t, run_one hstep, hinbox.trans hq, hrst.trans hr, engineStep_busy ht⟩
  | succ n ih =>
    have he : s.engineTurn = false := by simp [State.engineTurn, hn]
    rw [run_succ (step_wait_busy he hr hq hb)]
    exact ih hr rfl hb (by simp [hn])

/-- Settles O56: a running command ends within `slack` + 1 steps, and the next WAIT reads BUSY = 0. -/
theorem waitLoopEnds : Obligations.WaitLoopEnds := by
  intro s rest hr hq
  cases hb : s.busy with
  | false =>
    exact ⟨1, _, _, by omega, run_one (step_wait_idle hr hq hb), rfl, hr, hb, rfl, (statusWord_fields s).1.trans hb⟩
  | true =>
    obtain ⟨u, hrun, hqu, hru, hbu⟩ := run_wait_busy hr hq hb
    refine ⟨s.slack + 1 + 1, _, _, by omega, (run_add hrun 1).trans (run_one (step_wait_idle hru hqu hbu)), rfl, hru,
      hbu, rfl, (statusWord_fields u).1.trans hbu⟩

end Sys2Proof.Machine

/-! The byte/word codec of 40_codec.md and the digest bytes it gives, and the words of BLK beside the window's BLOCK registers. -/

namespace Sys2Proof.Machine

open Sys2Proof

/-! ### Words to bytes and back -/

/-- Decoding the bytes of a word gives the word: each bit of it is a bit of one shifted byte (40_codec.md R100, R101). -/
theorem be32Decode_wordByte (w : Word) :
    be32Decode (wordByte w 0) (wordByte w 1) (wordByte w 2) (wordByte w 3) = w := by
  simp only [be32Decode, wordByte]
  ext i hi
  grind

/-- The bytes of a word cut out of a wider vector are cut out of that vector. -/
theorem wordByte_extractLsb' {n : Nat} (v : BitVec n) (start : Nat) (k : Fin 4) :
    wordByte (v.extractLsb' start 32) k.val = v.extractLsb' (start + (24 - 8 * k.val)) 8 := by
  ext i hi
  have hbit : 24 - 8 * k.val + i < 32 := by omega
  simp [wordByte, hbit, Nat.add_assoc]

/-- Byte `j` of the 64-bit form lies in its high word for `j < 4` and in its low word after (40_codec.md R103). -/
theorem getElem?_be64Encode (v : BitVec 64) (j : Fin 8) :
    (be64Encode v)[j.val]? = some (v.extractLsb' (56 - 8 * j.val) 8) := by
  by_cases hj : j.val < 4
  · rw [be64Encode, List.getElem?_append_left hj, getElem?_be32Encode _ ⟨j.val, hj⟩, wordByte_extractLsb',
      show 32 + (24 - 8 * j.val) = 56 - 8 * j.val by omega]
  · rw [be64Encode, List.getElem?_append_right (Nat.le_of_not_lt hj), be32Encode_length,
      getElem?_be32Encode _ ⟨j.val - 4, by omega⟩, wordByte_extractLsb',
      show 0 + (24 - 8 * (j.val - 4)) = 56 - 8 * j.val by omega]

/-- Byte `j` of the `i`-th of some words encoded one after the other. -/
theorem getElem?_flatMap_be32Encode (ws : List Word) (i : Nat) (j : Fin 4) :
    (ws.flatMap be32Encode)[4 * i + j.val]? = ws[i]?.map (wordByte · j.val) := by
  induction ws generalizing i with
  | nil => rfl
  | cons w ws ih =>
    rw [List.flatMap_cons]
    cases i with
    | zero =>
      rw [List.getElem?_append_left (by simp)]
      simpa using getElem?_be32Encode w j
    | succ i =>
      rw [List.getElem?_append_right (by simp; omega), be32Encode_length,
        show 4 * (i + 1) + j.val - 4 = 4 * i + j.val by omega]
      exact ih i

/-- Digest byte `4i + j` is byte `j` of H[i], for each word of H that D reaches (40_codec.md R104). -/
theorem getElem?_serialize (h : Vector Word 8) {d : Nat} (i : Fin 8) (j : Fin 4) (hi : i.val < d / 4) :
    (serialize h d)[4 * i.val + j.val]? = some (wordByte h[i.val] j.val) := by
  rw [serialize, getElem?_flatMap_be32Encode, List.getElem?_take_of_lt hi]
  simp

/-- Every digest is a whole number of words. -/
theorem four_dvd_digestLen (alg : Alg) : 4 ∣ alg.digestLen := by
  cases alg <;> decide

/-- Word `i` of the block in BLK is the word of register BLOCK[i] (40_codec.md R102, 20_memory.md R55). -/
theorem getElem?_blockWords_toList (buf : Vector Byte 64) (i : Fin 16) :
    (blockWords buf.toList)[i.val]? = some (bufWord buf i) := by
  rw [blockWords_getElem? _ _ (by simp; omega)]
  rfl

/-! ### The obligations of 40_codec.md -/

/-- Settles O39: both sides are the `bufWord` of BLK. -/
theorem blockWordsAreTheBlockRegisters : Obligations.BlockWordsAreTheBlockRegisters := fun s i =>
  ⟨blockWords_length 16 _ (by simp), fun hs hb =>
    ⟨bufWord s.blk i, getElem?_blockWords_toList s.blk i, (bufferRegistersReadBigEndian s i hs hb).1⟩⟩

/-- Settles O40: the words that D reaches are encoded one after the other. -/
theorem serializedDigestBytes : Obligations.SerializedDigestBytes := by
  refine ⟨rfl, rfl, fun h alg => ⟨serialize_length h alg, fun i j hij => getElem?_serialize h i j ?_⟩⟩
  have := four_dvd_digestLen alg
  omega

/-- Settles O38: the bytes of `be32Encode` are the slices of the statement by definition. -/
theorem codecDirectionsAreInverse : Obligations.CodecDirectionsAreInverse :=
  ⟨fun _ => rfl, be32Decode_wordByte, be32Encode_be32Decode, fun v => ⟨be64Encode_length v, getElem?_be64Encode v⟩⟩

end Sys2Proof.Machine

/-! The padding of 41_padding.md: the blocks `pad` makes of a tail, the stream `padded` makes of a message, and the bytes of
BLK that FINAL reads. -/

namespace Sys2Proof.Machine

open Sys2Proof

/-! ### Padding with a given number of zero bytes -/

/-- The bytes `T`, then 0x80, `z` zero bytes and the length field of a message of `L` bytes. -/
def padWith (z : Nat) (T : List Byte) (L : Nat) : List Byte :=
  T ++ [0x80] ++ List.replicate z 0 ++ lengthField L

@[simp] theorem padWith_length (z : Nat) (T : List Byte) (L : Nat) : (padWith z T L).length = T.length + 9 + z := by
  simp [padWith]
  omega

theorem take_padWith (z : Nat) (T : List Byte) (L : Nat) : (padWith z T L).take (T.length + 1) = T ++ [0x80] := by
  rw [padWith, List.append_assoc]
  exact List.take_left' (by simp)

theorem drop_padWith (z : Nat) (T : List Byte) (L : Nat) :
    (padWith z T L).drop ((padWith z T L).length - 8) = lengthField L :=
  List.drop_left' (by simp; omega)

theorem getElem?_padWith_zero {z : Nat} {T : List Byte} (L : Nat) {j : Nat} (hj : T.length < j)
    (hz : j + 8 < (padWith z T L).length) : (padWith z T L)[j]? = some 0 := by
  rw [padWith_length] at hz
  rw [padWith, List.getElem?_append_left (by simp; omega), List.getElem?_append_right (by simp; omega),
    List.getElem?_replicate_of_lt (by simp; omega)]

/-! ### The padded tail and the padded stream -/

theorem flatten_blocks {q : Nat} {m : List Byte} (h : m.length = 64 * q) : (blocks q m).flatten = m := by
  induction q generalizing m with
  | zero => exact (List.length_eq_zero_iff.1 h).symm
  | succ q ih => rw [blocks, List.flatten_cons, ih (by simp; omega), List.take_append_drop]

/-- `pad` cuts the padded tail into one block, or into two when the length field does not fit behind 0x80; the zeros that end
the first block and those that lead the second are one run (41_padding.md R121). -/
theorem pad_eq_blocks {T : List Byte} (L : Nat) (hT : T.length ≤ 63) :
    pad T L = blocks (if T.length ≤ 55 then 1 else 2)
      (padWith (if T.length ≤ 55 then 55 - T.length else 119 - T.length) T L) := by
  by_cases hone : T.length ≤ 55
  · have hblock : (padWith (55 - T.length) T L).length = 64 := by
      rw [padWith_length]
      omega
    calc pad T L = [padWith (55 - T.length) T L] := if_pos (by omega)
      _ = blocks 1 (padWith (55 - T.length) T L) := by rw [blocks, blocks, List.take_of_length_le hblock.le]
      _ = _ := by rw [if_pos hone, if_pos hone]
  · have hzeros : T ++ [0x80] ++ List.replicate (63 - T.length) 0 ++ List.replicate 56 0 ++ lengthField L =
        padWith (119 - T.length) T L := by
      rw [padWith, show 119 - T.length = (63 - T.length) + 56 by omega, List.replicate_add, ← List.append_assoc]
    have hsecond : ((padWith (119 - T.length) T L).drop 64).length = 64 := by
      rw [List.length_drop, padWith_length]
      omega
    calc pad T L = [(padWith (119 - T.length) T L).take 64, (padWith (119 - T.length) T L).drop 64] :=
          hzeros ▸ if_neg (by omega)
      _ = blocks 2 (padWith (119 - T.length) T L) := by rw [blocks, blocks, blocks, List.take_of_length_le hsecond.le]
      _ = _ := by rw [if_neg hone, if_neg hone]

/-- The zero bytes of the padded stream are those that bring its length to the next multiple of 64 (41_padding.md R125). -/
theorem padded_eq_padWith (m : List Byte) :
    ∃ z, z < 64 ∧ 64 ∣ m.length + 9 + z ∧ padded m = padWith z m m.length :=
  ⟨((55 - (m.length : Int)) % 64).toNat, by omega, by omega, rfl⟩

/-! ### The bytes FINAL reads -/

theorem exec_final (n : Nat) (s : State) : exec (.final n) s =
    .next (if check 0x3 0 n s = .none then (finalEffect n s).finish else s.raise (check 0x3 0 n s)) :=
  complete_eq _ _ _

theorem check_blk (op alg len : Nat) (s : State) (b : Vector Byte 64) :
    check op alg len { s with blk := b } = check op alg len s := rfl

section tail
variable {n : Nat} {s : State} {b : Vector Byte 64} (h : ∀ j : Fin 64, j.val < n → b[j.val] = s.blk[j.val])
include h

theorem tailOperand_congr : tailOperand n { s with blk := b } = tailOperand n s := by
  apply List.ext_getElem
  · simp [tailOperand]
  · intro j hj _
    obtain ⟨hjn, hj64⟩ : j < n ∧ j < 64 := by simpa [tailOperand] using hj
    simpa [tailOperand] using h ⟨j, hj64⟩ hjn

/-- BLK enters the digest only as the tail. -/
theorem finalDigest_congr : finalDigest n { s with blk := b } = finalDigest n s := by
  simp only [finalDigest, finalInner, finalLength, tailOperand_congr h]

end tail

/-! ### The obligations of 41_padding.md -/

/-- Settles O41: `pad` cuts a string of one or two blocks' length into blocks, which join to that string again. -/
theorem paddedTailShape : Obligations.PaddedTailShape := by
  intro T L hT
  have hlen : (padWith (if T.length ≤ 55 then 55 - T.length else 119 - T.length) T L).length =
      64 * (if T.length ≤ 55 then 1 else 2) := by
    rw [padWith_length]
    split <;> omega
  obtain ⟨hcount, hsize⟩ := blocks_length _ _ hlen.ge
  rw [pad_eq_blocks L hT]
  exact ⟨hcount, hsize, flatten_blocks hlen⟩

/-- Settles O42: the stream is the message padded with fewer than 64 zero bytes to a multiple of 64. -/
theorem paddedStreamLength : Obligations.PaddedStreamLength := by
  intro m
  obtain ⟨z, hz, hdvd, hpad⟩ := padded_eq_padWith m
  rw [hpad]
  have hlen := padWith_length z m m.length
  exact ⟨hlen ▸ hdvd, by omega, by omega, take_padWith z m m.length, fun _ => getElem?_padWith_zero m.length,
    drop_padWith z m m.length⟩

/-- Settles O43: the check does not read BLK, and the digest reads only its tail. -/
theorem finalDoesNotReadPastTheTail : Obligations.FinalDoesNotReadPastTheTail := by
  intro n s t b hb hexec
  rw [exec_final] at hexec
  obtain rfl := Host.Outcome.next.inj hexec
  refine ⟨_, exec_final n _, ?_⟩
  rw [check_blk]
  by_cases hcheck : check 0x3 0 n s = .none
  · simp only [hcheck, if_true]
    exact ⟨finalDigest_congr hb, rfl, rfl, rfl, rfl, rfl⟩
  · simp only [hcheck, if_false]
    exact ⟨rfl, rfl, rfl, rfl, rfl, rfl⟩

end Sys2Proof.Machine

/-! The SHA-1 engine of 42_sha1.md: the bits of Ch and Maj, the phases of the 80 rounds, the message schedule, and the
rounds a compression runs; with the rounds of SHA-256 (43_sha256.md R171, R179, R180) beside those of SHA-1. -/

namespace Sys2Proof.Machine

open Sys2Proof

/-! ### Ch and Maj -/

theorem getLsbD_ch1 (b c d : Word) {i : Nat} (hi : i < 32) :
    (ch1 b c d).getLsbD i = if b.getLsbD i then c.getLsbD i else d.getLsbD i := by
  rw [ch1, BitVec.getLsbD_or, BitVec.getLsbD_and, BitVec.getLsbD_and, BitVec.getLsbD_not]
  cases b.getLsbD i <;> simp [hi]

/-- Maj's expression on one bit is the majority vote of the three. -/
theorem or_ands_eq_majority : ∀ x y z : Bool,
    (x && y || x && z || y && z) = decide (2 ≤ x.toNat + y.toNat + z.toNat) := by decide

/-- Of the three terms of Maj at a bit one or all three are 1, or none is. -/
theorem xor_ands_eq_or_ands : ∀ x y z : Bool,
    ((x && y) ^^ (x && z) ^^ (y && z)) = (x && y || x && z || y && z) := by decide

theorem getLsbD_maj1 (b c d : Word) (i : Nat) :
    (maj1 b c d).getLsbD i = decide (2 ≤ (b.getLsbD i).toNat + (c.getLsbD i).toNat + (d.getLsbD i).toNat) := by
  simp only [maj1, BitVec.getLsbD_or, BitVec.getLsbD_and, or_ands_eq_majority]

/-- The two terms of Ch have no 1 bit in common, so their XOR is their OR. -/
theorem ch256_eq_ch1 (b c d : Word) : ch256 b c d = ch1 b c d := by
  refine BitVec.eq_of_getLsbD_eq fun i hi => ?_
  rw [getLsbD_ch1 b c d hi, ch256, BitVec.getLsbD_xor, BitVec.getLsbD_and, BitVec.getLsbD_and, BitVec.getLsbD_not]
  cases b.getLsbD i <;> simp [hi]

theorem maj256_eq_maj1 (b c d : Word) : maj256 b c d = maj1 b c d := by
  refine BitVec.eq_of_getLsbD_eq fun i _ => ?_
  simp only [maj256, maj1, BitVec.getLsbD_xor, BitVec.getLsbD_or, BitVec.getLsbD_and, xor_ands_eq_or_ands]

/-- Settles O45: bit by bit, and the two forms agree because they have equal bits. -/
theorem chooseAndMajority : Obligations.ChooseAndMajority := by
  intro b c d
  exact ⟨ch256_eq_ch1 b c d, maj256_eq_maj1 b c d, fun i hi => ⟨getLsbD_ch1 b c d hi, getLsbD_maj1 b c d i⟩⟩

/-! ### The phases of the 80 rounds -/

theorem k1_of_div {t p : Nat} (h : t / 20 = p) : k1 t = k1Table.getD p 0 := by rw [k1, h]

/-- Settles O47: each phase is one branch of `f1` and one entry of `k1Table`. -/
theorem sha1PhaseFunctions : Obligations.Sha1PhaseFunctions := by
  intro t b c d
  refine ⟨fun hlast => ?_, fun hfirst hlast => ?_, fun hfirst hlast => ?_, fun hfirst hlast => ?_⟩
  · exact ⟨if_pos hlast, k1_of_div (p := 0) (by omega)⟩
  · refine ⟨?_, k1_of_div (p := 1) (by omega)⟩
    rw [f1, if_neg (by omega), if_pos hlast, parity1]
  · refine ⟨?_, k1_of_div (p := 2) (by omega)⟩
    rw [f1, if_neg (by omega), if_neg (by omega), if_pos hlast, maj1]
  · refine ⟨?_, k1_of_div (p := 3) (by omega)⟩
    rw [f1, if_neg (by omega), if_neg (by omega), if_neg (by omega), parity1]

/-! ### The message schedules -/

/-- Oldest first, the schedule is the block's words and then the computed ones. -/
theorem sched1_eq_append (B : List Byte) : ∃ e, e.length = 64 ∧ sched1 B = blockWords B ++ e := by
  obtain ⟨e, heq, hlen, -⟩ := extend1_spec 64 (blockWords B).reverse
  exact ⟨e.reverse, by simp [hlen], by simp [sched1, heq]⟩

section schedule
variable {B : List Byte} (hB : B.length = 64)
include hB

theorem sched1_length : (sched1 B).length = 80 := by
  obtain ⟨e, hlen, heq⟩ := sched1_eq_append B
  rw [heq, List.length_append, blockWords_length 16 B hB, hlen]

theorem sched1_getD_of_lt {t : Nat} (ht : t < 16) : (sched1 B).getD t 0 = (blockWords B).getD t 0 := by
  obtain ⟨e, -, heq⟩ := sched1_eq_append B
  rw [heq, List.getD_append _ _ _ _ (by rwa [blockWords_length 16 B hB])]

/-- W[t] stands `79 - t` places from the newest word. -/
theorem sched1_getD {t : Nat} (ht : t < 80) :
    (sched1 B).getD t 0 = (extend1 64 (blockWords B).reverse).getD (79 - t) 0 := by
  have hlen : (extend1 64 (blockWords B).reverse).length = 80 := by simpa [sched1] using sched1_length hB
  rw [sched1, List.getD_reverse _ (by rwa [hlen]), hlen]

theorem sched1_getD_recurrence {t : Nat} (hfirst : 16 ≤ t) (hlast : t < 80) : (sched1 B).getD t 0 =
    rotl ((sched1 B).getD (t - 3) 0 ^^^ (sched1 B).getD (t - 8) 0 ^^^ (sched1 B).getD (t - 14) 0 ^^^
      (sched1 B).getD (t - 16) 0) 1 := by
  obtain ⟨-, -, -, hnext⟩ := extend1_spec 64 (blockWords B).reverse
  have hback (d : Nat) (hd : d < 16) : (sched1 B).getD (t - (d + 1)) 0 =
      ((extend1 64 (blockWords B).reverse).drop (79 - t + 1)).getD d 0 := by
    rw [sched1_getD hB (by omega), List.getD_eq_getElem?_getD, List.getD_eq_getElem?_getD, List.getElem?_drop,
      show 79 - (t - (d + 1)) = 79 - t + 1 + d by omega]
  rw [sched1_getD hB hlast, hnext _ (by omega), next1, hback 2 (by decide), hback 7 (by decide),
    hback 13 (by decide), hback 15 (by decide)]

theorem sched256_length : (sched256 B).length = 64 := by
  obtain ⟨e, heq, hlen, -⟩ := extend256_spec 48 (blockWords B).reverse
  simp [sched256, heq, hlen, blockWords_length 16 B hB]

end schedule

/-- Settles O48: the block's words come first, and each later word is `next1` of the words before it. -/
theorem sha1ScheduleRecurrence : Obligations.Sha1ScheduleRecurrence := by
  intro B hB
  exact ⟨sched1_length hB, fun _ => sched1_getD_of_lt hB, fun _ => sched1_getD_recurrence hB⟩

/-! ### The rounds of a compression -/

theorem map_k256_range : (List.range 64).map k256 = k256Table := rfl

section rounds
variable (h : Vector Word 8) {B : List Byte} (hB : B.length = 64)
include hB

/-- The working registers before round t, for all 80 rounds and after the last. -/
theorem work1_runs : ∃ r : Nat → Work1, r 0 = { a := h[0], b := h[1], c := h[2], d := h[3], e := h[4] } ∧
    (∀ t, t < 80 → r (t + 1) = round1 t ((sched1 B).getD t 0) (r t)) ∧ work1 h B = r 80 := by
  simpa only [sched1_length hB, Nat.zero_add, work1] using
    rounds1_spec (sched1 B) 0 { a := h[0], b := h[1], c := h[2], d := h[3], e := h[4] }

/-- The working registers before round t, for all 64 rounds and after the last. -/
theorem work256_runs : ∃ r : Nat → Work256,
    r 0 = { a := h[0], b := h[1], c := h[2], d := h[3], e := h[4], f := h[5], g := h[6], h := h[7] } ∧
    (∀ t, t < 64 → r (t + 1) = round256 t ((sched256 B).getD t 0) (r t)) ∧ work256 h B = r 64 := by
  simpa only [sched256_length hB, Nat.zero_add, work256] using rounds256_spec (sched256 B) 0
    { a := h[0], b := h[1], c := h[2], d := h[3], e := h[4], f := h[5], g := h[6], h := h[7] }

end rounds

/-- Settles O50: the registers of each round are `round1` (`round256`) of those before, and the last ones enter H. -/
theorem compressionRunsItsRoundsInOrder : Obligations.CompressionRunsItsRoundsInOrder := by
  refine ⟨map_k256_range, fun h B hB => ⟨?_, ?_⟩⟩
  · obtain ⟨r, hstart, hround, hlast⟩ := work1_runs h hB
    refine ⟨r, hstart, fun t ht => ?_, by rw [compress1, hlast]⟩
    rw [hround t ht]
    exact ⟨rfl, rfl, rfl, rfl, rfl⟩
  · obtain ⟨r, hstart, hround, hlast⟩ := work256_runs h hB
    refine ⟨r, hstart, fun t ht => ?_, by rw [compress256, hlast]⟩
    rw [hround t ht]
    exact ⟨rfl, rfl, rfl, rfl, rfl, rfl, rfl, rfl⟩

end Sys2Proof.Machine

/-! The bit functions and the message schedule of SHA-256 (43_sha256.md R174 to R178). -/

namespace Sys2Proof.Machine

open Sys2Proof

/-! ### The bits of the sigma functions -/

section sigma
variable (x : Word) {p q i : Nat} (hp : p < 32) (hq : q < 32) (hi : i < 32)
include hp hq hi

/-- The shape of Σ0 and Σ1: bit i of three rotates' XOR. -/
theorem getLsbD_rotr_xor_rotr_xor_rotr {r : Nat} (hr : r < 32) :
    (rotr x p ^^^ rotr x q ^^^ rotr x r).getLsbD i =
      (x.getLsbD ((i + p) % 32) ^^ x.getLsbD ((i + q) % 32) ^^ x.getLsbD ((i + r) % 32)) := by
  rw [BitVec.getLsbD_xor, BitVec.getLsbD_xor, getLsbD_rotr x hp hi, getLsbD_rotr x hq hi, getLsbD_rotr x hr hi]

/-- The shape of σ0 and σ1: the last of the three operands is a shift. -/
theorem getLsbD_rotr_xor_rotr_xor_shr (n : Nat) :
    (rotr x p ^^^ rotr x q ^^^ shr x n).getLsbD i =
      (x.getLsbD ((i + p) % 32) ^^ x.getLsbD ((i + q) % 32) ^^ (decide (i + n < 32) && x.getLsbD (i + n))) := by
  rw [BitVec.getLsbD_xor, BitVec.getLsbD_xor, getLsbD_rotr x hp hi, getLsbD_rotr x hq hi, getLsbD_shr]

end sigma

/-- Settles O46: each function has one of the two shapes, with its own amounts. -/
theorem sigmaBits : Obligations.SigmaBits := by
  intro x i hi
  refine ⟨?_, ?_, ?_, ?_⟩
  · exact getLsbD_rotr_xor_rotr_xor_rotr x (by decide) (by decide) hi (by decide)
  · exact getLsbD_rotr_xor_rotr_xor_rotr x (by decide) (by decide) hi (by decide)
  · exact getLsbD_rotr_xor_rotr_xor_shr x (by decide) (by decide) hi 3
  · exact getLsbD_rotr_xor_rotr_xor_shr x (by decide) (by decide) hi 10

/-! ### The message schedule -/

/-- In a schedule kept newest first, the word `d + 1` before W[t] is entry `d` of the words older than W[t]. -/
theorem getD_reverse_sub_succ (newest : List Word) {t d : Nat} (hd : d < t) (ht : t ≤ newest.length) :
    newest.reverse.getD (t - (d + 1)) 0 = (newest.drop (newest.length - t)).getD d 0 := by
  have hplace : newest.length - 1 - (t - (d + 1)) = newest.length - t + d := by omega
  rw [List.getD_reverse _ (by omega), hplace, List.getD_eq_getElem?_getD, List.getD_eq_getElem?_getD, List.getElem?_drop]

section schedule
variable {B : List Byte} (hB : B.length = 64)
include hB

theorem sched256_getD_of_lt {t : Nat} (ht : t < 16) : (sched256 B).getD t 0 = (blockWords B).getD t 0 := by
  obtain ⟨e, heq, -, -⟩ := extend256_spec 48 (blockWords B).reverse
  have happend : sched256 B = blockWords B ++ e.reverse := by simp [sched256, heq]
  rw [happend, List.getD_append _ _ _ _ (by rwa [blockWords_length 16 B hB])]

theorem sched256_getD_sub_succ {t d : Nat} (hd : d < t) (ht : t ≤ 64) : (sched256 B).getD (t - (d + 1)) 0 =
    ((extend256 48 (blockWords B).reverse).drop (64 - t)).getD d 0 := by
  have hlen : (extend256 48 (blockWords B).reverse).length = 64 := by simpa [sched256] using sched256_length hB
  rw [sched256, getD_reverse_sub_succ _ hd (by rwa [hlen]), hlen]

/-- W[t] is the first word of those older than W[t + 1], so `extend256_spec` gives it from the rest. -/
theorem sched256_getD_recurrence {t : Nat} (hfirst : 16 ≤ t) (hlast : t < 64) : (sched256 B).getD t 0 =
    smallSigma1 ((sched256 B).getD (t - 2) 0) + (sched256 B).getD (t - 7) 0 +
      smallSigma0 ((sched256 B).getD (t - 15) 0) + (sched256 B).getD (t - 16) 0 := by
  obtain ⟨-, -, -, hnext⟩ := extend256_spec 48 (blockWords B).reverse
  have hback {d : Nat} (hd : d < 16) := sched256_getD_sub_succ hB (show d < t by omega) hlast.le
  rw [hback (d := 1) (by decide), hback (d := 6) (by decide), hback (d := 14) (by decide), hback (d := 15) (by decide)]
  calc (sched256 B).getD t 0
      = ((extend256 48 (blockWords B).reverse).drop (63 - t)).getD 0 0 := by
        simpa using sched256_getD_sub_succ hB (Nat.succ_pos t) hlast
    _ = (extend256 48 (blockWords B).reverse).getD (63 - t) 0 := by
        simp [List.getD_eq_getElem?_getD]
    _ = next256 ((extend256 48 (blockWords B).reverse).drop (64 - t)) := by
        rw [hnext _ (by omega), show 63 - t + 1 = 64 - t by omega]

end schedule

/-- Settles O49: the block's words come first, and each later word is `next256` of the words before it. -/
theorem sha256ScheduleRecurrence : Obligations.Sha256ScheduleRecurrence := by
  intro B hB
  exact ⟨sched256_length hB, fun _ => sched256_getD_of_lt hB, fun _ => sched256_getD_recurrence hB⟩

end Sys2Proof.Machine

/-! The command lifecycle and INIT, BLOCK, FINAL of 44_driver.md: a command by its conditions, what the engine's step makes of the
pending one, and the phases. -/

namespace Sys2Proof.Machine

open Sys2Proof

/-! ### A command by its conditions -/

/-- The error a command ends in, with the condition that gives it: the errors beside the completions of `Completes`
(60_exceptions.md R242, R244). -/
inductive Raises (s : State) : Instr → ErrCode → Prop where
  | initAlg {alg : Nat} (ha : 2 ≤ alg) : Raises s (.init alg) .unsupportedAlgorithm
  | blockPhase (hp : s.phase ≠ .accumulating) : Raises s .block .sequence
  | blockLength (hp : s.phase = .accumulating) (hc : 2 ^ 61 ≤ s.count.toNat + 64) : Raises s .block .lengthOverflow
  | finalLen {n : Nat} (hn : 63 < n) : Raises s (.final n) .invalidArgument
  | finalPhase {n : Nat} (hn : n ≤ 63) (hp : s.phase ≠ .accumulating) : Raises s (.final n) .sequence
  | hmacInitAlg {alg k : Nat} (ha : 2 ≤ alg) : Raises s (.hmacInit alg k) .unsupportedAlgorithm
  | hmacInitKey {alg k : Nat} (ha : alg < 2) (hk : 64 < k) : Raises s (.hmacInit alg k) .keyLengthExceeded

/-- A command whose error's condition holds ends in that error. -/
theorem exec_of_raises {i : Instr} {s : State} {c : ErrCode} (h : Raises s i c) : exec i s = .next (s.raise c) := by
  cases h with
  | initAlg ha => simp [exec, execInit, complete_eq, check_init, ha]
  | blockPhase hp => simp [exec, execBlock, complete_eq, check_block, hp]
  | blockLength hp hc => simp only [exec, execBlock, complete_eq, check_block, hp, hc]; simp
  | finalLen hn => simp [exec, execFinal, complete_eq, check_final, hn]
  | finalPhase hn hp => simp [exec, execFinal, complete_eq, check_final, hp, Nat.not_lt.2 hn]
  | hmacInitAlg ha => simp [exec, execHmacInit, complete_eq, check_hmacInit, ha]
  | hmacInitKey ha hk => simp [exec, execHmacInit, complete_eq, check_hmacInit, Nat.not_le.2 ha, hk]

/-- The conditions of the errors and of the completion leave no command out. -/
theorem raises_or_completes (i : Instr) (s : State) : (∃ c, Raises s i c) ∨ ∃ t, Completes s i t := by
  cases i with
  | init alg =>
    obtain ha | ha := Nat.lt_or_ge alg 2
    · exact .inr ⟨_, .init alg ha⟩
    · exact .inl ⟨_, .initAlg ha⟩
  | block =>
    by_cases hp : s.phase = .accumulating
    · obtain hc | hc := Nat.lt_or_ge (s.count.toNat + 64) (2 ^ 61)
      · exact .inr ⟨_, .block hp hc⟩
      · exact .inl ⟨_, .blockLength hp hc⟩
    · exact .inl ⟨_, .blockPhase hp⟩
  | final n =>
    obtain hn | hn := Nat.lt_or_ge 63 n
    · exact .inl ⟨_, .finalLen hn⟩
    · by_cases hp : s.phase = .accumulating
      · exact .inr ⟨_, .final n hn hp⟩
      · exact .inl ⟨_, .finalPhase hn hp⟩
  | hmacInit alg k =>
    obtain ha | ha := Nat.lt_or_ge alg 2
    · obtain hk | hk := Nat.lt_or_ge 64 k
      · exact .inl ⟨_, .hmacInitKey ha hk⟩
      · exact .inr ⟨_, .hmacInit alg k ha hk⟩
    · exact .inl ⟨_, .hmacInitAlg ha⟩

theorem step_of_engineTurn {s : State} {i : Instr} (he : s.engineTurn = true) (hi : decode s.pend = .ok i) :
    step s = exec i s := by
  rw [step_engine he, engineStep, hi]

/-! ### The obligations on single commands of 44_driver.md -/

/-- Settles O6: the engine's step runs what PEND decodes to, and a well-formed command's word decodes to it. -/
theorem stepRunsThePendingCommand : Obligations.StepRunsThePendingCommand :=
  ⟨fun _ _ => step_of_engineTurn, fun s _ hi =>
    step_of_engineTurn (s := s.placeCommand _) rfl (by rw [placeCommand_pend, decode_encode hi])⟩

/-- Settles O7: CMD accepts while idle and drops while busy. -/
theorem commandWriteIsAcceptedOrDropped : Obligations.CommandWriteIsAcceptedOrDropped := fun _ v hs =>
  ⟨writes_accepted v hs, fun hb => writes_dropped v hs hb (by decide) (.inl rfl)⟩

/-- Settles O8: ALG 0 and 1 complete with the initial values of R140 and R170, the others raise. -/
theorem initStartsAComputation : Obligations.InitStartsAComputation := by
  intro alg s
  refine ⟨?_, ?_, fun ha => exec_of_raises (.initAlg ha)⟩
  · rintro rfl
    exact exec_of_completes (.init 0 (by decide))
  · rintro rfl
    exact exec_of_completes (.init 1 (by decide))

/-- Settles O9: BLOCK completes or raises by PHASE and COUNT, and `compress` is the compression function of ALGL. -/
theorem blockCompressesTheBuffer : Obligations.BlockCompressesTheBuffer := by
  intro s
  refine ⟨fun hp hc => ?_, fun hp hc => exec_of_raises (.blockLength hp hc), fun hp => exec_of_raises (.blockPhase hp)⟩
  have hh : (blockEffect s).h = match s.algl with
      | .sha1 => compress1 s.h s.blk.toList
      | .sha256 => compress256 s.h s.blk.toList := by
    rw [blockEffect_h]
    cases s.algl <;> rfl
  refine ⟨(blockEffect s).blk, (blockEffect s).draws, ?_⟩
  rw [exec_of_completes (.block hp hc)]
  exact congrArg (fun h => Host.Outcome.next { (blockEffect s).finish with h }) hh

/-- Settles O10: FINAL completes or raises by n and PHASE, and `finalDigest` is H as the statement gives it. -/
theorem finalClosesTheComputation : Obligations.FinalClosesTheComputation := fun n _ =>
  ⟨fun hn hp => ⟨_, _, exec_of_completes (.final n hn hp)⟩, fun hn => exec_of_raises (.finalLen hn),
    fun hn hp => exec_of_raises (.finalPhase hn hp)⟩

/-- Settles O11: an error keeps PHASE, each completion has its own, and SEQUENCE is the error of the other phases. -/
theorem phaseTransitionTable : Obligations.PhaseTransitionTable := by
  refine ⟨rfl, fun i s t h => ⟨fun herr => ?_, fun herr => ?_, ?_, ?_⟩⟩
  · obtain ⟨c, -, rfl⟩ | hc := exec_next h
    · rfl
    · exact absurd hc.err herr
  · obtain ⟨c, hne, rfl⟩ | hc := exec_next h
    · exact absurd herr hne
    · cases hc with
      | init => rfl
      | block hp => exact ⟨hp, hp⟩
      | final n hn hp => exact ⟨hp, rfl⟩
      | hmacInit => rfl
  · rintro hp rfl
    obtain rfl := Host.Outcome.next.inj ((exec_of_raises (.blockPhase hp)).symm.trans h)
    rfl
  · rintro hp n hn rfl
    obtain rfl := Host.Outcome.next.inj ((exec_of_raises (.finalPhase hn hp)).symm.trans h)
    rfl

/-- Settles O12: in FINALIZED a command raises an error, which moves none of these elements, or is INIT or HMAC_INIT; and the
host moves them only by releasing reset. -/
theorem finalizedDigestStays : Obligations.FinalizedDigestStays := by
  intro s t h hp
  obtain ⟨he, ⟨c, -, rfl⟩ | ⟨i, hi, hc⟩⟩ | ⟨-, hs⟩ := step_next h
  · exact .inl ⟨rfl, rfl, rfl, rfl, rfl⟩
  · refine .inr (.inl ⟨he, i, hi, ?_⟩)
    cases hc with
    | init alg => exact .inl ⟨alg, rfl⟩
    | block hacc => simp [hp] at hacc
    | final n hn hacc => simp [hp] at hacc
    | hmacInit alg k => exact .inr ⟨alg, k, rfl⟩
  · obtain hcore | ⟨hr, hq, -⟩ | ⟨off, v, rest, -, hw⟩ := hs.core_cases
    · exact .inl ⟨hcore.h, hcore.phase, hcore.algl, hcore.hmacm, hcore.count⟩
    · exact .inr (.inr ⟨hr, hq⟩)
    · obtain ⟨hh, -, hcount, hphase, halgl, hhmacm⟩ := hw.frame
      exact .inl ⟨hh, hphase, halgl, hhmacm, hcount⟩

end Sys2Proof.Machine

/-! Whole messages on the commands of 44_driver.md R207 and 45_hmac.md R227: what a computation in progress has absorbed,
what FINAL makes of it, and the message's blocks and tail fed to it one by one. -/

namespace Sys2Proof.Machine

open Sys2Proof

/-! ### The blocks of a message and of its padded stream -/

theorem flatten_blocks_append_drop (q : Nat) (m : List Byte) : (blocks q m).flatten ++ m.drop (64 * q) = m := by
  induction q generalizing m with
  | zero => rfl
  | succ q ih =>
    have hrest : m.drop (64 * (q + 1)) = (m.drop 64).drop (64 * q) := by rw [List.drop_drop, Nat.mul_succ, Nat.add_comm]
    rw [blocks, List.flatten_cons, List.append_assoc, hrest, ih, List.take_append_drop]

/-- The padded stream of whole blocks followed by a tail is those blocks, then the padded tail (41_padding.md R125). -/
theorem blocks_padded {x T : List Byte} (hx : 64 ∣ x.length) (hT : T.length ≤ 63) :
    blocks ((padded (x ++ T)).length / 64) (padded (x ++ T)) =
      blocks (x.length / 64) x ++ pad T (x.length + T.length) := by
  obtain ⟨z, hz, hdvd, hpad⟩ := padded_eq_padWith (x ++ T)
  rw [List.length_append] at hdvd hpad
  have hsplit : padWith z (x ++ T) (x.length + T.length) = x ++ padWith z T (x.length + T.length) := by
    simp [padWith]
  obtain ⟨hzero, hcount⟩ : z = (if T.length ≤ 55 then 55 - T.length else 119 - T.length) ∧
      (padWith z (x ++ T) (x.length + T.length)).length / 64 = x.length / 64 + if T.length ≤ 55 then 1 else 2 := by
    rw [padWith_length, List.length_append]
    split <;> omega
  rw [hpad, hcount, hsplit, blocks_append _ _ _ _ (by omega), pad_eq_blocks _ hT, ← hzero]

/-! ### The digest before it is serialised -/

/-- H after the blocks of `padded(m)` have been compressed in order from the initial state (44_driver.md R207). -/
def digestState (alg : Alg) (m : List Byte) : Vector Word 8 :=
  compressAll alg (ivOf alg) (blocks ((padded m).length / 64) (padded m))

theorem digest_eq (alg : Alg) (m : List Byte) : digest alg m = serialize (digestState alg m) alg.digestLen := rfl

theorem compressAll_append (alg : Alg) (h : Vector Word 8) (bs cs : List (List Byte)) :
    compressAll alg h (bs ++ cs) = compressAll alg (compressAll alg h bs) cs := List.foldl_append

theorem digestState_append (alg : Alg) {x T : List Byte} (hx : 64 ∣ x.length) (hT : T.length ≤ 63) :
    digestState alg (x ++ T) =
      compressAll alg (compressAll alg (ivOf alg) (blocks (x.length / 64) x)) (pad T (x.length + T.length)) := by
  rw [digestState, blocks_padded hx hT, compressAll_append]

theorem blocks_one {b : List Byte} (hb : b.length = 64) : blocks (b.length / 64) b = [b] := by
  rw [hb, blocks, blocks, List.take_of_length_le hb.le]

@[simp] theorem xorBytes_length (bytes : List Byte) (c : Byte) : (xorBytes bytes c).length = bytes.length := by
  simp [xorBytes]

@[simp] theorem ipad_length (kblk : Vector Byte 64) : (ipad kblk).length = 64 := by simp [ipad]

@[simp] theorem opad_length (kblk : Vector Byte 64) : (opad kblk).length = 64 := by simp [opad]

/-- The outer hash is the digest of opad and the serialised inner digest (45_hmac.md R225). -/
theorem hmacOuter_eq_digestState (alg : Alg) (kblk : Vector Byte 64) (h : Vector Word 8) :
    hmacOuter alg kblk h = digestState alg (opad kblk ++ serialize h alg.digestLen) := by
  have hT : (serialize h alg.digestLen).length ≤ 63 := by rw [serialize_length]; cases alg <;> decide
  rw [digestState_append alg (by simp) hT, blocks_one (opad_length kblk), opad_length, serialize_length]
  rfl

/-! ### A computation in progress, and one that FINAL has closed -/

/-- The computation in progress has compressed the digest input `x`, whole blocks, from the initial state (44_driver.md R203). -/
structure State.Absorbed (s : State) (x : List Byte) : Prop where
  phase : s.phase = .accumulating
  aligned : 64 ∣ x.length
  count : s.count.toNat = x.length
  h : s.h = compressAll s.algl (ivOf s.algl) (blocks (x.length / 64) x)

/-- FINAL has closed a computation over the digest input `x` without error (44_driver.md R204, 45_hmac.md R225). -/
structure State.Closed (s : State) (x : List Byte) : Prop where
  err : s.err = .none
  phase : s.phase = .finalized
  count : s.count.toNat = x.length
  h : s.h = if s.hmacm then hmacOuter s.algl s.kblk (digestState s.algl x) else digestState s.algl x

/-- The elements that BLOCK, FINAL and the host's loads leave as a computation began with them agree. -/
structure State.SameMode (s t : State) : Prop where
  algl : t.algl = s.algl
  hmacm : t.hmacm = s.hmacm
  kblk : t.kblk = s.kblk
  ovr : t.ovr = s.ovr

theorem State.SameMode.trans {s t u : State} (a : s.SameMode t) (b : t.SameMode u) : s.SameMode u :=
  ⟨b.algl.trans a.algl, b.hmacm.trans a.hmacm, b.kblk.trans a.kblk, b.ovr.trans a.ovr⟩

theorem absorbed_initEffect (alg : Alg) (s : State) : (initEffect alg s).finish.Absorbed [] where
  phase := rfl
  aligned := by simp
  count := rfl
  h := rfl

theorem absorbed_hmacInitEffect (alg : Alg) (k : Nat) (s : State) :
    (hmacInitEffect alg k s).finish.Absorbed (ipad (keyBlock (keyOperand k s))) where
  phase := rfl
  aligned := by simp
  count := by rw [ipad_length]; rfl
  h := by rw [blocks_one (ipad_length _)]; rfl

/-- BLOCK adds the 64 bytes of BLK to the digest input. -/
theorem State.Absorbed.block {s : State} {x : List Byte} (h : s.Absorbed x) (hc : s.count.toNat + 64 < 2 ^ 61) :
    (blockEffect s).finish.Absorbed (x ++ s.blk.toList) where
  phase := h.phase
  aligned := by
    have := h.aligned
    simp
    omega
  count := by
    have hsum : (s.count + 64).toNat = s.count.toNat + 64 := BitVec.toNat_add_of_lt hc
    simpa [h.count] using hsum
  h := by
    have hblk : s.blk.toList.length = 64 := by simp
    have hdvd := h.aligned
    have hcount : (x ++ s.blk.toList).length / 64 = x.length / 64 + s.blk.toList.length / 64 := by
      rw [List.length_append]
      omega
    rw [hcount, blocks_append _ _ _ _ (by omega), blocks_one hblk, compressAll_append]
    simp only [finish_h, blockEffect_h, finish_algl, blockEffect_algl, h.h]
    rfl

/-- FINAL pads and compresses its tail: the digest input is what was absorbed and the tail. -/
theorem State.Absorbed.final {s : State} {x : List Byte} {n : Nat} (h : s.Absorbed x) (hn : n ≤ 63)
    (hL : x.length + n < 2 ^ 61) : (finalEffect n s).finish.Closed (x ++ tailOperand n s) := by
  have htail : (tailOperand n s).length = n := by simp [tailOperand]; omega
  have hinner : finalInner n s = digestState s.algl (x ++ tailOperand n s) := by
    rw [digestState_append s.algl h.aligned (htail.le.trans hn), htail, ← h.h, finalInner, finalLength, h.count]
  exact
    { err := rfl
      phase := rfl
      count := by
        rw [List.length_append, htail, finish_count, finalEffect_count, finalLength, h.count, BitVec.toNat_ofNat,
          Nat.mod_eq_of_lt hL]
      h := by
        rw [finish_h, finalEffect_h, finalDigest, hinner]
        rfl }

/-! ### Feeding a message -/

section loaded
variable (i : Instr) {s : State} {p : List Byte}

/-- Loading BLK and issuing a command do not touch the computation in progress. -/
theorem State.Absorbed.loaded {x : List Byte} (h : s.Absorbed x) (p : List Byte) :
    (issue i (loadBlk p s)).Absorbed x where
  phase := by simpa using h.phase
  aligned := h.aligned
  count := by simpa using h.count
  h := by simpa using h.h

/-- The tail a command finds in BLK is the bytes loaded. -/
theorem tailOperand_loaded (hp : p.length ≤ 64) : tailOperand p.length (issue i (loadBlk p s)) = p := by
  rw [tailOperand, issue_blk, loadBlk_blk, zeroFill_take p hp]

theorem blk_loaded (hp : p.length = 64) : (issue i (loadBlk p s)).blk.toList = p := by
  have hall := tailOperand_loaded i (s := s) hp.le
  rwa [tailOperand, hp, List.take_of_length_le (by simp)] at hall

end loaded

/-- BLOCK performed on 64 bytes loaded adds them to the digest input. -/
theorem perform_block_absorbs {s : State} {x b : List Byte} (h : s.Absorbed x) (hb : b.length = 64)
    (hL : x.length + 64 < 2 ^ 61) :
    ∃ t, perform .block (loadBlk b s) = .next t ∧ t.Absorbed (x ++ b) ∧ s.SameMode t := by
  have hu := h.loaded .block b
  have hc : (issue .block (loadBlk b s)).count.toNat + 64 < 2 ^ 61 := hu.count ▸ hL
  have hnext := hu.block hc
  rw [blk_loaded .block hb] at hnext
  exact ⟨_, perform_of_completes (.block hu.phase hc), hnext, by constructor <;> simp⟩

/-- FINAL performed on a tail loaded closes the computation. -/
theorem perform_final_closes {s : State} {x p : List Byte} (h : s.Absorbed x) (hp : p.length ≤ 63)
    (hL : x.length + p.length < 2 ^ 61) :
    ∃ t, perform (.final p.length) (loadBlk p s) = .next t ∧ t.Closed (x ++ p) ∧ s.SameMode t := by
  have hu := h.loaded (.final p.length) p
  have hclosed := hu.final hp hL
  rw [tailOperand_loaded _ (by omega)] at hclosed
  exact ⟨_, perform_of_completes (.final _ hp hu.phase), hclosed, by constructor <;> simp⟩

/-- The blocks fed one by one are added to the digest input, in order (44_driver.md R207). -/
theorem absorb_blocks {bs : List (List Byte)} {s : State} {x : List Byte} (h : s.Absorbed x)
    (hbs : ∀ b ∈ bs, b.length = 64) (hL : x.length + 64 * bs.length < 2 ^ 61) :
    ∃ t, absorb bs s = .next t ∧ t.Absorbed (x ++ bs.flatten) ∧ s.SameMode t := by
  induction bs generalizing s x with
  | nil => exact ⟨s, rfl, by simpa using h, ⟨rfl, rfl, rfl, rfl⟩⟩
  | cons b bs ih =>
    rw [List.length_cons] at hL
    obtain ⟨hb, hbs⟩ := List.forall_mem_cons.1 hbs
    obtain ⟨u, hu, hux, hsu⟩ := perform_block_absorbs h hb (by omega)
    obtain ⟨t, ht, htx, hut⟩ := ih hux hbs (by rw [List.length_append]; omega)
    refine ⟨t, ?_, by simpa using htx, hsu.trans hut⟩
    rw [absorb, hu, andThen_next, ht]

/-- A message fed to a computation in progress closes it over what was absorbed and the message. -/
theorem feed_closes {s : State} {x m : List Byte} (h : s.Absorbed x) (hL : x.length + m.length < 2 ^ 61) :
    ∃ t, feed m s = .next t ∧ t.Closed (x ++ m) ∧ s.SameMode t := by
  obtain ⟨hcount, hsize⟩ := blocks_length (m.length / 64) m (by omega)
  have hm := flatten_blocks_append_drop (m.length / 64) m
  have hlen := congrArg List.length hm
  rw [List.length_append] at hlen
  have htail : (m.drop (64 * (m.length / 64))).length = m.length % 64 := by rw [List.length_drop]; omega
  obtain ⟨u, hu, hux, hsu⟩ := absorb_blocks h hsize (by omega)
  obtain ⟨t, ht, htx, hut⟩ := perform_final_closes (p := m.drop (64 * (m.length / 64))) hux (by omega)
    (by rw [List.length_append]; omega)
  rw [List.append_assoc, hm] at htx
  rw [htail] at ht
  exact ⟨t, by rw [feed, hu, andThen_next, ht], htx, hsu.trans hut⟩

/-- The command sequence of 44_driver.md R207 closes a plain computation over the message. -/
theorem hashMessage_closes (alg : Alg) {m : List Byte} (s : State) (hL : m.length < 2 ^ 61) :
    ∃ t, hashMessage alg m s = .next t ∧ t.Closed m ∧ t.algl = alg ∧ t.hmacm = false ∧ t.ovr = s.ovr := by
  obtain ⟨t, ht, hclosed, hmode⟩ := feed_closes (m := m)
    (absorbed_initEffect (Alg.ofField alg.code) (issue (.init alg.code) s)) (by simpa using hL)
  refine ⟨t, ?_, hclosed, by simpa using hmode.algl, by simpa using hmode.hmacm, by simpa using hmode.ovr⟩
  rw [hashMessage, perform_of_completes (.init alg.code (code_lt alg)), andThen_next, ht]

/-- The command sequence of 45_hmac.md R227 closes an HMAC computation over ipad and the message. -/
theorem macMessage_closes (alg : Alg) {key m : List Byte} (s : State) (hk : key.length ≤ 64)
    (hL : 64 + m.length < 2 ^ 61) :
    ∃ t, macMessage alg key m s = .next t ∧ t.Closed (ipad (keyBlock key) ++ m) ∧ t.algl = alg ∧ t.hmacm = true ∧
      t.kblk = keyBlock key ∧ t.ovr = s.ovr := by
  have hkey : keyOperand key.length (issue (.hmacInit alg.code key.length) (loadKey key s)) = key := by
    rw [keyOperand, issue_keyBuf, loadKey_keyBuf, zeroFill_take key hk]
  have habs := absorbed_hmacInitEffect (Alg.ofField alg.code) key.length
    (issue (.hmacInit alg.code key.length) (loadKey key s))
  rw [hkey] at habs
  obtain ⟨t, ht, hclosed, hmode⟩ := feed_closes (m := m) habs (by simpa using hL)
  refine ⟨t, ?_, hclosed, by simpa using hmode.algl, by simpa using hmode.hmacm, by simpa [hkey] using hmode.kblk,
    by simpa using hmode.ovr⟩
  rw [macMessage, perform_of_completes (.hmacInit alg.code key.length (code_lt alg) hk), andThen_next, ht]

/-- A closed plain computation holds the digest of its input (44_driver.md R207). -/
theorem State.Closed.serialize_eq_digest {s : State} {x : List Byte} (h : s.Closed x) (hm : s.hmacm = false) :
    serialize s.h s.algl.digestLen = digest s.algl x := by
  rw [h.h, hm, digest_eq]
  rfl

/-- A closed HMAC computation holds the MAC (45_hmac.md R227). -/
theorem State.Closed.serialize_eq_hmac {s : State} {key m : List Byte} (h : s.Closed (ipad (keyBlock key) ++ m))
    (hm : s.hmacm = true) (hk : s.kblk = keyBlock key) : serialize s.h s.algl.digestLen = hmac s.algl key m := by
  rw [h.h, hm, hk, if_pos rfl, hmacOuter_eq_digestState, hmac, digest_eq, digest_eq]

/-- Settles O13: the sequence closes a plain computation over the message. -/
theorem digestOfEveryMessage : Obligations.DigestOfEveryMessage := by
  intro alg m s hL
  obtain ⟨t, ht, hclosed, rfl, hhmacm, -⟩ := hashMessage_closes alg s hL
  exact ⟨t, ht, hclosed.err, hclosed.phase, hhmacm, rfl, hclosed.count, hclosed.serialize_eq_digest hhmacm⟩

end Sys2Proof.Machine

/-! A command written to CMD and waited for (44_driver.md R200, R201; 70_reset_and_hazards.md R283), and the bus traffic of
44_driver.md R207 and 45_hmac.md R227 as the command sequences it carries. -/

namespace Sys2Proof.Machine

open Sys2Proof

/-! ### Commands on states that agree but for BLK -/

/-- The state elements of `a` are those of `s`, BLK perhaps excepted: it is unspecified after a command (10_state.md R25). -/
def State.SameButBlk (s a : State) : Prop := ({ s with blk := a.blk } : State).SameCore a

theorem State.SameCore.sameButBlk {s a : State} (h : s.SameCore a) : s.SameButBlk a := { h with blk := rfl }

theorem State.SameButBlk.trans_sameCore {s a b : State} (h : s.SameButBlk a) (hab : a.SameCore b) : s.SameButBlk b :=
  { h.trans hab with blk := rfl }

theorem Raises.congr {i : Instr} {s a : State} {c : ErrCode} (hs : s.SameButBlk a) (h : Raises s i c) : Raises a i c := by
  have hphase : a.phase = s.phase := hs.phase
  have hcount : a.count = s.count := hs.count
  cases h with
  | initAlg ha => exact .initAlg ha
  | blockPhase hp => exact .blockPhase (hphase ▸ hp)
  | blockLength hp hc => exact .blockLength (hphase.trans hp) (hcount ▸ hc)
  | finalLen hn => exact .finalLen hn
  | finalPhase hn hp => exact .finalPhase hn (hphase ▸ hp)
  | hmacInitAlg ha => exact .hmacInitAlg ha
  | hmacInitKey ha hk => exact .hmacInitKey ha hk

/-- Only BLOCK and FINAL read BLK (44_driver.md R203, R204). -/
def ReadsBlk : Instr → Prop
  | .block => True
  | .final _ => True
  | _ => False

/-- A completion depends on the state elements only, and on BLK only where the command reads it. -/
theorem Completes.congr {i : Instr} {s a t : State} (hs : s.SameButBlk a) (hblk : ReadsBlk i → a.blk = s.blk)
    (h : Completes s i t) : ∃ u, Completes a i u ∧ t.SameButBlk u := by
  have hphase : a.phase = s.phase := hs.phase
  have hcount : a.count = s.count := hs.count
  cases h with
  | init alg ha => exact ⟨_, .init alg ha, by constructor <;> simp [hs.keyBuf, hs.kblk, hs.pend, hs.ovr]⟩
  | block hp hc =>
    refine ⟨_, .block (hphase.trans hp) (hcount ▸ hc), ?_⟩
    have hop : blockOperand a = blockOperand s := congrArg Vector.toList (hblk trivial)
    constructor <;> simp [hs.keyBuf, hs.kblk, hs.pend, hs.ovr, hs.algl, hs.h, hs.hmacm, hcount, hphase, hop]
  | final n hn hp =>
    refine ⟨_, .final n hn (hphase.trans hp), ?_⟩
    have htail : tailOperand n a = tailOperand n s := congrArg (·.toList.take n) (hblk trivial)
    have hdigest : finalDigest n a = finalDigest n s := by
      simp [finalDigest, finalInner, finalLength, htail, hs.h, hs.algl, hs.hmacm, hs.kblk, hcount]
    constructor <;> simp [hs.keyBuf, hs.kblk, hs.pend, hs.ovr, hs.algl, hs.hmacm, hcount, hdigest, finalLength]
  | hmacInit alg k ha hk =>
    refine ⟨_, .hmacInit alg k ha hk, ?_⟩
    constructor <;> simp [keyOperand, hs.keyBuf, hs.pend, hs.ovr]

/-- A command depends on the state elements only, and on BLK only where it reads it. -/
theorem exec_congr {i : Instr} {s a t : State} (hs : s.SameButBlk a) (hblk : ReadsBlk i → a.blk = s.blk)
    (h : exec i s = .next t) : ∃ u, exec i a = .next u ∧ t.SameButBlk u := by
  obtain ⟨c, hc⟩ | ⟨t', ht'⟩ := raises_or_completes i s
  · obtain rfl := Host.Outcome.next.inj ((exec_of_raises hc).symm.trans h)
    exact ⟨_, exec_of_raises (hc.congr hs), { hs with err := rfl, busy := rfl }⟩
  · obtain rfl := Host.Outcome.next.inj ((exec_of_completes ht').symm.trans h)
    obtain ⟨u, hu, htu⟩ := ht'.congr hs hblk
    exact ⟨u, exec_of_completes hu, htu⟩

theorem exec_total (i : Instr) (s : State) : ∃ t, exec i s = .next t := by
  obtain ⟨c, hc⟩ | ⟨t, ht⟩ := raises_or_completes i s
  · exact ⟨_, exec_of_raises hc⟩
  · exact ⟨t, exec_of_completes ht⟩

theorem exec_busy {i : Instr} {s t : State} (h : exec i s = .next t) : t.busy = false := by
  obtain ⟨c, -, rfl⟩ | hc := exec_next h
  · rfl
  · exact hc.busy

/-- BLK stays under INIT and under a command that ends in an error (44_driver.md R202, 60_exceptions.md R241). -/
theorem exec_blk {i : Instr} {s t : State} (h : exec i s = .next t) (hi : (∃ alg, i = .init alg) ∨ t.err ≠ .none) :
    t.blk = s.blk := by
  obtain ⟨c, -, rfl⟩ | hc := exec_next h
  · rfl
  · obtain ⟨alg, rfl⟩ | herr := hi
    · cases hc
      rfl
    · exact absurd hc.err herr

/-! ### A command written to CMD and waited for -/

/-- The WAIT loop reaches the engine's turn with the state elements as they stood. -/
theorem run_wait_to_engineTurn {s : State} {rest : List HostOp} (hr : s.rst = false) (hq : s.inbox = .wait :: rest)
    (hb : s.busy = true) :
    ∃ c, run s.slack s = .next c ∧ s.SameCore c ∧ c.engineTurn = true ∧ c.rst = false ∧ c.inbox = .wait :: rest := by
  induction hn : s.slack generalizing s with
  | zero => exact ⟨s, run_zero s, .refl s, engineTurn_iff.2 ⟨hb, hn, hr⟩, hr, hq⟩
  | succ n ih =>
    have he : s.engineTurn = false := by simp [State.engineTurn, hn]
    obtain ⟨c, hrun, hsame, hc⟩ := ih (s := s.turn (.wait :: rest) (some (statusWord s))) hr rfl hb (by simp [hn])
    exact ⟨c, (run_succ (step_wait_busy he hr hq hb) n).trans hrun, (turn_sameCore s _ _).trans hsame, hc⟩

theorem step_write_cmd_idle {s : State} {v : Word} {rest : List HostOp} (hb : s.busy = false) (hr : s.rst = false)
    (hq : s.inbox = asmWr 0x04 v :: rest) : step s = .next ((s.turn rest none).accept v) := by
  have he : s.engineTurn = false := by simp [State.engineTurn, hb]
  rw [step_write he hr hq (by decide)]
  exact congrArg Host.Outcome.next (if_neg (by simp [hb]))

/-- A word written to CMD and waited for comes off the queue; in between its command is performed by `exec`, at a state `c` that
holds the state elements as the acceptance left them. -/
theorem run_command_and_wait {s : State} {v : Word} {i : Instr} {rest : List HostOp} (hb : s.busy = false)
    (hr : s.rst = false) (hi : decode v = .ok i) (hq : s.inbox = asmWr 0x04 v :: .wait :: rest) :
    ∃ k c u t, run k s = .next t ∧ ({ s with pend := v, err := .none, busy := true } : State).SameCore c ∧
      exec i c = .next u ∧ u.SameCore t ∧ t.inbox = rest ∧ t.rst = false := by
  have haccept := step_write_cmd_idle hb hr hq
  obtain ⟨c, hwait, hc, he, hrc, hqc⟩ :=
    run_wait_to_engineTurn (s := (s.turn (.wait :: rest) none).accept v) hr rfl rfl
  have hsc : ({ s with pend := v, err := .none, busy := true } : State).SameCore c :=
    .trans (by constructor <;> rfl) hc
  obtain ⟨u, hu⟩ := engineStep_total c
  have hengine := (step_engine he).trans hu
  have hexec : exec i c = .next u := (step_of_engineTurn he (by rw [hc.pend]; exact hi)).symm.trans hengine
  obtain ⟨hqu, hru, -, -⟩ := engineStep_hostSide hu
  have hend := step_wait_idle (hru.trans hrc) (hqu.trans hqc) (exec_busy hexec)
  have hrun := (run_succ haccept _).trans ((run_add hwait 2).trans ((run_succ hengine 1).trans (run_one hend)))
  exact ⟨_, c, u, _, hrun, hsc, hexec, turn_sameCore u rest _, rfl, hru.trans hrc⟩

/-- Settles O57: `exec` depends on the state elements only, and those at the engine's turn are those of the acceptance. -/
theorem writtenCommandTakesEffect : Obligations.WrittenCommandTakesEffect := by
  intro s v i rest hb hr hi hq
  obtain ⟨k, c, w, t, hrun, hc, hexec, hwt, hqt, hrt⟩ := run_command_and_wait hb hr hi hq
  obtain ⟨u, hu⟩ := exec_total i ({ s with pend := v, err := .none, busy := true } : State)
  obtain ⟨w', hw', huw⟩ := exec_congr hc.sameButBlk (fun _ => hc.blk) hu
  obtain rfl := Host.Outcome.next.inj (hw'.symm.trans hexec)
  have hut := huw.trans_sameCore hwt
  refine ⟨k, t, u, hrun, hu, hqt, hrt, hut.h, hut.keyBuf, hut.kblk, hut.pend, hut.count, hut.phase, hut.algl, hut.hmacm,
    hut.err, hut.ovr, hut.busy, fun hblk => ?_⟩
  rw [hwt.blk, exec_blk hexec (hblk.imp_right fun herr => by rwa [huw.err]), hc.blk]

/-! ### Bus traffic and the state function it carries out -/

/-- `a`, a state of the machine between two host operations, stands for the state elements `s`: no command is running, reset
is not asserted, and only BLK may differ. -/
structure StandsFor (a s : State) : Prop where
  idle : s.busy = false
  released : a.rst = false
  core : s.SameButBlk a

/-- The host operations `ops`, run from the head of the queue, carry out the state function `f`, BLK perhaps excepted. -/
def CarriesOut (ops : List HostOp) (f : State → Host.Outcome State Fault Refusal) : Prop :=
  ∀ (s t a : State) (rest : List HostOp), StandsFor a s → a.inbox = ops ++ rest → f s = .next t →
    ∃ k b, run k a = .next b ∧ StandsFor b t ∧ b.inbox = rest

theorem andThen_eq_next {o : Host.Outcome State Fault Refusal} {g : State → Host.Outcome State Fault Refusal} {t : State}
    (h : andThen o g = .next t) : ∃ u, o = .next u ∧ g u = .next t := by
  cases o with
  | next u => exact ⟨u, rfl, h⟩
  | fault r => cases h
  | refused r => cases h

theorem CarriesOut.andThen {ops₁ ops₂ : List HostOp} {f g : State → Host.Outcome State Fault Refusal}
    (hf : CarriesOut ops₁ f) (hg : CarriesOut ops₂ g) : CarriesOut (ops₁ ++ ops₂) fun s => andThen (f s) g := by
  intro s t a rest ha hq h
  obtain ⟨u, hu, ht⟩ := andThen_eq_next h
  obtain ⟨j, b, hb, hbu, hqb⟩ := hf s u a (ops₂ ++ rest) ha (by rw [hq, List.append_assoc]) hu
  obtain ⟨k, c, hc, hct, hqc⟩ := hg u t b rest hbu hqb ht
  exact ⟨j + k, c, (run_add hb k).trans hc, hct, hqc⟩

/-- A command and the WAIT behind it carry out `perform`, from a state whose BLK is exact where the command reads it. -/
theorem run_asmCommand {i : Instr} {s t a : State} {rest : List HostOp} (hi : WellFormed i) (ha : StandsFor a s)
    (hblk : ReadsBlk i → a.blk = s.blk) (hq : a.inbox = asmCommand i :: .wait :: rest) (h : perform i s = .next t) :
    ∃ k b, run k a = .next b ∧ StandsFor b t ∧ b.inbox = rest := by
  obtain ⟨k, c, w, b, hrun, hc, hexec, hwb, hqb, hrb⟩ :=
    run_command_and_wait (ha.core.busy.trans ha.idle) ha.released (decode_encode hi) hq
  have hissue : (issue i s).SameButBlk c :=
    State.SameButBlk.trans_sameCore (a := { a with pend := encode i, err := .none, busy := true })
      { ha.core with pend := rfl, err := rfl, busy := rfl } hc
  obtain ⟨w', hw', htw⟩ := exec_congr hissue (fun hread => hc.blk.trans (hblk hread)) h
  obtain rfl := Host.Outcome.next.inj (hw'.symm.trans hexec)
  exact ⟨k, b, hrun, ⟨exec_busy h, hrb, htw.trans_sameCore hwb⟩, hqb⟩

theorem carriesOut_command {i : Instr} (hi : WellFormed i) (hread : ¬ ReadsBlk i) :
    CarriesOut [asmCommand i, .wait] (perform i) := fun _ _ _ _ ha hq h =>
  run_asmCommand hi ha (absurd · hread) hq h

/-- The command after a LOADBLK may read BLK: the load has made it exact. -/
theorem carriesOut_loadBlk_command {i : Instr} (hi : WellFormed i) (p : List Byte) :
    CarriesOut (asmLoadBlk p ++ [asmCommand i, .wait]) fun s => perform i (loadBlk p s) := by
  intro s t a rest ha hq h
  rw [List.append_assoc] at hq
  obtain ⟨u, hu, hqu, hru, hsame⟩ := (writesBuffer_blk ha.idle).run_asmLoad p (b := a.blk) ha.released ha.core hq
  have hload : (loadBlk p s).SameCore u := by simpa only [loadBlk] using hsame
  have hidle : (loadBlk p s).busy = false := (loadBlk_busy p s).trans ha.idle
  obtain ⟨k, b, hb, hbt, hqb⟩ := run_asmCommand hi ⟨hidle, hru, hload.sameButBlk⟩ (fun _ => hload.blk) hqu h
  exact ⟨16 + k, b, (run_add hu k).trans hb, hbt, hqb⟩

theorem carriesOut_loadKey (p : List Byte) : CarriesOut (asmLoadKey p) fun s => .next (loadKey p s) := by
  intro s t a rest ha hq h
  obtain rfl := Host.Outcome.next.inj h
  obtain ⟨u, hu, hqu, hru, hsame⟩ :=
    (writesBuffer_keyBuf (s := { s with blk := a.blk }) ha.idle).run_asmLoad p (b := s.keyBuf) ha.released ha.core hq
  have hload : (loadKey p s).SameButBlk u := by
    simp only [State.SameButBlk, loadKey]
    exact { hsame with blk := rfl }
  exact ⟨16, u, hu, ⟨(loadKey_busy p s).trans ha.idle, hru, hload⟩, hqu⟩

theorem carriesOut_absorb (bs : List (List Byte)) :
    CarriesOut (bs.flatMap fun b => asmLoadBlk b ++ [asmCommand .block, .wait]) (absorb bs) := by
  induction bs with
  | nil =>
    rintro s t a rest ha hq ⟨⟩
    exact ⟨0, a, rfl, ha, hq⟩
  | cons b bs ih =>
    rw [List.flatMap_cons]
    exact (carriesOut_loadBlk_command (wellFormed_block.2 trivial) b).andThen ih

theorem carriesOut_feed (m : List Byte) : CarriesOut (asmFeed m) (feed m) :=
  (carriesOut_absorb _).andThen (carriesOut_loadBlk_command (wellFormed_final.2 (by omega)) _)

theorem carriesOut_hashMessage (alg : Alg) (m : List Byte) : CarriesOut (asmHash alg m) (hashMessage alg m) :=
  (carriesOut_command (wellFormed_init.2 (by have := code_lt alg; omega)) id).andThen (carriesOut_feed m)

theorem carriesOut_macMessage (alg : Alg) {key : List Byte} (m : List Byte) (hk : key.length ≤ 64) :
    CarriesOut (asmMac alg key m) (macMessage alg key m) :=
  (carriesOut_loadKey key).andThen ((carriesOut_command
    (wellFormed_hmacInit.2 ⟨by have := code_lt alg; omega, by omega⟩) id).andThen (carriesOut_feed m))

/-- Settles O58: the traffic carries out the command sequences, which close the computation. -/
theorem busTrafficComputesDigestAndMac : Obligations.BusTrafficComputesDigestAndMac := by
  intro alg m s rest hb hr
  have hs : StandsFor s s := ⟨hb, hr, (State.SameCore.refl s).sameButBlk⟩
  refine ⟨fun hL hq => ?_, fun key hk hL hq => ?_⟩
  · obtain ⟨t, ht, hclosed, rfl, hhmacm, hovr⟩ := hashMessage_closes alg s hL
    obtain ⟨k, b, hrun, hbt, hqb⟩ := carriesOut_hashMessage _ m s t s rest hs hq ht
    have hcore := hbt.core
    exact ⟨k, b, hrun, hqb, hcore.busy.trans hbt.idle, hcore.err.trans hclosed.err, hcore.ovr.trans hovr,
      hcore.phase.trans hclosed.phase, hcore.hmacm.trans hhmacm, hcore.algl, hcore.count ▸ hclosed.count,
      hcore.h ▸ hclosed.serialize_eq_digest hhmacm⟩
  · obtain ⟨t, ht, hclosed, rfl, hhmacm, hkblk, hovr⟩ := macMessage_closes alg s hk hL
    obtain ⟨k, b, hrun, hbt, hqb⟩ := carriesOut_macMessage _ m hk s t s rest hs hq ht
    have hcore := hbt.core
    have hcount : t.count.toNat = 64 + m.length := by rw [hclosed.count, List.length_append, ipad_length]
    exact ⟨k, b, hrun, hqb, hcore.busy.trans hbt.idle, hcore.err.trans hclosed.err, hcore.ovr.trans hovr,
      hcore.phase.trans hclosed.phase, hcore.hmacm.trans hhmacm, hcore.algl, hcore.count ▸ hcount,
      hcore.h ▸ hclosed.serialize_eq_hmac hhmacm hkblk⟩

end Sys2Proof.Machine

/-! HMAC of 45_hmac.md: HMAC_INIT by its conditions, the bytes of the Key Block and its pads, the two blocks of the outer digest,
the MAC of a whole message, and the bytes of KEYBUF the commands read. -/

namespace Sys2Proof.Machine

open Sys2Proof

/-! ### The Key Block and its pads -/

theorem getElem_keyBlock (key : List Byte) (j : Fin 64) :
    (keyBlock key)[j.val] = if h : j.val < key.length then key[j.val] else 0 := by
  rw [keyBlock, zeroFill, Vector.getElem_ofFn]
  split
  case isTrue h => exact List.getD_eq_getElem _ _ h
  case isFalse h => exact List.getD_eq_default _ _ (Nat.not_lt.1 h)

theorem getElem?_xorBytes_toList (kblk : Vector Byte 64) (c : Byte) (j : Fin 64) :
    (xorBytes kblk.toList c)[j.val]? = some (kblk[j.val] ^^^ c) := by
  simp [xorBytes]

/-! ### The outer digest -/

/-- A tail of at most 55 bytes is padded to one block (41_padding.md R121). -/
theorem pad_of_length_le {T : List Byte} (L : Nat) (hT : T.length ≤ 55) : pad T L = [padWith (55 - T.length) T L] :=
  if_pos (by omega)

/-- The serialised inner digest fits one padded block behind opad (45_hmac.md R225). -/
theorem hmacOuter_eq_compress (alg : Alg) (kblk : Vector Byte 64) (h : Vector Word 8) :
    hmacOuter alg kblk h = compress alg (compress alg (ivOf alg) (opad kblk))
      (padWith (55 - alg.digestLen) (serialize h alg.digestLen) (64 + alg.digestLen)) := by
  have hD : alg.digestLen ≤ 55 := by cases alg <;> decide
  have hlen := serialize_length h alg
  rw [hmacOuter, pad_of_length_le _ (hlen.le.trans hD), hlen]
  rfl

/-! ### The bytes of KEYBUF a command reads -/

/-- How many bytes of KEYBUF a command reads, from byte 0 on (45_hmac.md R220). -/
def keyBytesRead : Instr → Nat
  | .hmacInit _ k => k
  | _ => 0

section keyBuf
variable {i : Instr} {s t : State} {b : Vector Byte 64}

/-- KEYBUF is read up to k as FINAL reads BLK up to n: `tailOperand_congr`, with KEYBUF in BLK's place. -/
theorem keyOperand_congr {k : Nat} (h : ∀ j : Fin 64, j.val < k → b[j.val] = s.keyBuf[j.val]) :
    keyOperand k { s with keyBuf := b } = keyOperand k s :=
  tailOperand_congr (s := { s with blk := s.keyBuf }) h

/-- The conditions of the errors do not speak of KEYBUF. -/
theorem Raises.keyBuf {c : ErrCode} (h : Raises s i c) (b : Vector Byte 64) : Raises { s with keyBuf := b } i c := by
  cases h with
  | initAlg ha => exact .initAlg ha
  | blockPhase hp => exact .blockPhase hp
  | blockLength hp hc => exact .blockLength hp hc
  | finalLen hn => exact .finalLen hn
  | finalPhase hn hp => exact .finalPhase hn hp
  | hmacInitAlg ha => exact .hmacInitAlg ha
  | hmacInitKey ha hk => exact .hmacInitKey ha hk

/-- KEYBUF enters a completion only by the bytes the command reads; BLK, a draw, is excepted. -/
theorem Completes.keyBuf (hb : ∀ j : Fin 64, j.val < keyBytesRead i → b[j.val] = s.keyBuf[j.val])
    (h : Completes s i t) : ∃ b', Completes { s with keyBuf := b } i { t with keyBuf := b, blk := b' } := by
  cases h with
  | init alg ha => exact ⟨_, .init alg ha⟩
  | block hp hc => exact ⟨_, .block hp hc⟩
  | final n hn hp => exact ⟨_, .final n hn hp⟩
  | hmacInit alg k ha hk =>
    have hkey : keyOperand k { s with keyBuf := b } = keyOperand k s := keyOperand_congr hb
    have hcompletes := Completes.hmacInit (s := { s with keyBuf := b }) alg k ha hk
    rw [hmacInitEffect, hkey] at hcompletes
    exact ⟨_, hcompletes⟩

/-- A change of KEYBUF past the bytes a command reads changes no other element of its next state but BLK, a draw. -/
theorem exec_keyBuf (hb : ∀ j : Fin 64, j.val < keyBytesRead i → b[j.val] = s.keyBuf[j.val])
    (h : exec i s = .next t) : ∃ b', exec i { s with keyBuf := b } = .next { t with keyBuf := b, blk := b' } := by
  obtain ⟨c, hc⟩ | ⟨u, hu⟩ := raises_or_completes i s
  · obtain rfl := Host.Outcome.next.inj ((exec_of_raises hc).symm.trans h)
    exact ⟨s.blk, exec_of_raises (hc.keyBuf b)⟩
  · obtain rfl := Host.Outcome.next.inj ((exec_of_completes hu).symm.trans h)
    obtain ⟨b', hcompletes⟩ := hu.keyBuf hb
    exact ⟨b', exec_of_completes hcompletes⟩

end keyBuf

/-! ### The obligations of 45_hmac.md -/

/-- Settles O14: ALG 0 and 1 with a key that fits complete, the others raise in the order of R244. -/
theorem hmacInitStartsAComputation : Obligations.HmacInitStartsAComputation := by
  intro alg k s
  refine ⟨fun ha hk => ?_, fun ha => exec_of_raises (.hmacInitAlg ha), fun ha hk => exec_of_raises (.hmacInitKey ha hk)⟩
  obtain rfl | rfl : alg = 0 ∨ alg = 1 := by omega
  · exact ⟨_, _, exec_of_completes (.hmacInit 0 k ha hk)⟩
  · exact ⟨_, _, exec_of_completes (.hmacInit 1 k ha hk)⟩

/-- Settles O15: the Key Block is the key zero-filled, and both pads are bytewise. -/
theorem keyBlockAndPadBytes : Obligations.KeyBlockAndPadBytes := fun key j _ =>
  ⟨getElem_keyBlock key j, getElem?_xorBytes_toList _ _ j, getElem?_xorBytes_toList _ _ j⟩

/-- Settles O16: the padded block behind opad, at D = 20 and at D = 32. -/
theorem outerDigestIsTwoBlocks : Obligations.OuterDigestIsTwoBlocks := fun kblk h =>
  ⟨hmacOuter_eq_compress .sha1 kblk h, hmacOuter_eq_compress .sha256 kblk h⟩

/-- Settles O17: the sequence closes an HMAC computation over ipad and the message. -/
theorem macOfEveryMessage : Obligations.MacOfEveryMessage := by
  intro alg key m s hk hL
  obtain ⟨t, ht, hclosed, rfl, hhmacm, hkblk, -⟩ := macMessage_closes alg s hk hL
  have hcount : t.count.toNat = 64 + m.length := by rw [hclosed.count, List.length_append, ipad_length]
  exact ⟨t, ht, hclosed.err, hclosed.phase, hhmacm, rfl, hcount, hclosed.serialize_eq_hmac hhmacm hkblk⟩

/-- Settles O18: HMAC_INIT reads k bytes of KEYBUF, BLOCK and FINAL none. -/
theorem macDoesNotDependOnOtherKeyBytes : Obligations.MacDoesNotDependOnOtherKeyBytes := by
  refine ⟨fun alg k s t b hb h => ?_, fun i s t b hi h => ?_⟩
  · obtain ⟨b', hu⟩ := exec_keyBuf (i := .hmacInit alg k) hb h
    exact ⟨_, hu, rfl, rfl, rfl, rfl, rfl, rfl, rfl⟩
  · have hread : keyBytesRead i = 0 := by obtain rfl | ⟨n, rfl⟩ := hi <;> rfl
    obtain ⟨b', hu⟩ := exec_keyBuf (b := b) (fun j hj => absurd hj (by simp [hread])) h
    exact ⟨_, hu, rfl, rfl, rfl, rfl, rfl, rfl, rfl⟩

end Sys2Proof.Machine

/-! What a command's error leaves, and the invariant kept by every step (60_exceptions.md): the host's turn clause by clause,
the engine's step command by command. -/

namespace Sys2Proof.Machine

open Sys2Proof

/-! ### Under SHA-1 the upper words of H stay 0 -/

/-- The words of H that SHA-1 does not use are 0 (42_sha1.md R150). -/
def UpperZero (h : Vector Word 8) : Prop := h[5] = 0 ∧ h[6] = 0 ∧ h[7] = 0

theorem upperZero_iv1 : UpperZero (ivOf .sha1) := ⟨rfl, rfl, rfl⟩

/-- SHA-1's compression passes H[5..7] through (42_sha1.md R148). -/
theorem UpperZero.compress {h : Vector Word 8} (hz : UpperZero h) (B : List Byte) : UpperZero (compress .sha1 h B) := hz

theorem UpperZero.compressAll {h : Vector Word 8} (hz : UpperZero h) (bs : List (List Byte)) :
    UpperZero (compressAll .sha1 h bs) := by
  induction bs generalizing h with
  | nil => exact hz
  | cons B bs ih => exact ih (hz.compress B)

theorem upperZero_hmacOuter (kblk : Vector Byte 64) (h : Vector Word 8) : UpperZero (hmacOuter .sha1 kblk h) :=
  (upperZero_iv1.compress _).compressAll _

theorem upperZero_blockEffect {s : State} (ha : s.algl = .sha1) (hz : UpperZero s.h) : UpperZero (blockEffect s).h := by
  rw [blockEffect_h, ha]
  exact hz.compress _

/-- Plain or HMAC, FINAL under SHA-1 leaves the upper words 0. -/
theorem upperZero_finalDigest {s : State} (n : Nat) (ha : s.algl = .sha1) (hz : UpperZero s.h) :
    UpperZero (finalDigest n s) := by
  rw [finalDigest, finalInner, ha]
  split
  · exact upperZero_hmacOuter _ _
  · exact hz.compressAll _

/-! ### The length FINAL closes -/

/-- COUNT is at most 2^61 − 64 while ACCUMULATING, and a tail has at most 63 bytes (60_exceptions.md R242). -/
theorem State.Inv.finalLength_lt {s : State} {n : Nat} (h : s.Inv) (hp : s.phase = .accumulating) (hn : n ≤ 63) :
    finalLength n s < 2 ^ 61 := by
  have hdvd := h.countAligned hp
  have hlt := s.count.isLt
  rw [finalLength]
  omega

/-- FINAL stores COUNT + n without loss. -/
theorem State.Inv.finalEffect_count_toNat {s : State} {n : Nat} (h : s.Inv) (hp : s.phase = .accumulating) (hn : n ≤ 63) :
    (finalEffect n s).count.toNat = finalLength n s := by
  rw [finalEffect_count, BitVec.toNat_ofNat, Nat.mod_eq_of_lt (h.finalLength_lt hp hn)]

/-! ### The host's turn keeps the invariant -/

/-- A step that leaves what only commands write keeps the invariant, if its BUSY fits ERR and `slack`. -/
theorem State.Inv.of_commandElements {s t : State} (hs : s.Inv)
    (hframe : t.h = s.h ∧ t.kblk = s.kblk ∧ t.count = s.count ∧ t.phase = s.phase ∧ t.algl = s.algl ∧ t.hmacm = s.hmacm)
    (hbusy : t.busy = true → t.err = .none) (hidle : t.busy = false → t.slack = 0) : t.Inv := by
  obtain ⟨hh, hkblk, hcount, hphase, halgl, hhmacm⟩ := hframe
  exact
    { busyNoError := hbusy
      countAligned := by simpa only [hphase, hcount] using hs.countAligned
      freshIsReset := by simpa only [hphase, hh, hkblk, hcount, halgl, hhmacm] using hs.freshIsReset
      sha1UpperZero := by simpa only [halgl, hh] using hs.sha1UpperZero
      hmacCounted := by simpa only [hhmacm, hcount] using hs.hmacCounted
      idleNoSlack := hidle }

theorem State.SameCore.inv {s t : State} (hcore : s.SameCore t) (hs : s.Inv) (hidle : t.busy = false → t.slack = 0) :
    t.Inv :=
  hs.of_commandElements ⟨hcore.h, hcore.kblk, hcore.count, hcore.phase, hcore.algl, hcore.hmacm⟩
    (fun hb => hcore.err.trans (hs.busyNoError (hcore.busy.symm.trans hb))) hidle

/-- A write keeps the invariant: the one that sets BUSY, the acceptance, clears ERR (44_driver.md R200). -/
theorem Written.inv {s t : State} {v : Word} {r : Reg} (h : Written s v r t) (hs : s.Inv) : t.Inv := by
  refine hs.of_commandElements h.frame ?_ ?_
  · cases h with
    | accepted => exact fun _ => rfl
    | _ => exact hs.busyNoError
  · cases h with
    | accepted => exact nofun
    | _ => exact hs.idleNoSlack

/-- A turn that passes keeps the invariant: with BUSY = 0 its `slack` stays at 0. -/
theorem State.Inv.turn {s : State} (h : s.Inv) (rest : List HostOp) (answer : Option Word) : (s.turn rest answer).Inv :=
  (turn_sameCore s rest answer).inv h fun hb => by
    have := h.idleNoSlack hb
    rw [turn_slack]
    omega

theorem State.Inv.hostRead {s : State} (h : s.Inv) (r : Reg) : (hostRead s r).2.Inv := by
  obtain hread | hread := hostRead_cases s r <;> rw [hread]
  · exact h
  · exact State.SameCore.inv (s := s) (by constructor <;> rfl) h h.idleNoSlack

/-- Whatever the host's turn performs, the invariant stays. -/
theorem HostStep.inv {s t : State} (h : HostStep s t) (hs : s.Inv) : t.Inv := by
  cases h with
  | assertReset rest =>
    exact State.SameCore.inv (s := s.turn rest none) (by constructor <;> rfl) (hs.turn _ _) (hs.turn rest none).idleNoSlack
  | releaseReset rest =>
    exact State.SameCore.inv (s := State.reset) (by constructor <;> rfl) resetMeetsInvariant fun _ => rfl
  | read off rest => exact (hs.hostRead _).turn _ _
  | write off v rest => exact (hostWrite_written _ _ _).inv (hs.turn _ _)
  | wait rest =>
    unfold performWait
    split <;> exact hs.turn _ _
  | _ => exact hs.turn _ _

/-! ### The engine's step keeps the invariant -/

/-- An error leaves what commands write. -/
theorem State.Inv.raise {s : State} (h : s.Inv) (c : ErrCode) (hslack : s.slack = 0) : (s.raise c).Inv :=
  h.of_commandElements ⟨rfl, rfl, rfl, rfl, rfl, rfl⟩ nofun fun _ => hslack

/-- A computation begins with COUNT and the upper words of H at 0. -/
theorem inv_initEffect (alg : Alg) {s : State} (hslack : s.slack = 0) : (initEffect alg s).finish.Inv where
  busyNoError := nofun
  countAligned := fun _ => Nat.dvd_zero 64
  freshIsReset := nofun
  sha1UpperZero := fun (ha : alg = .sha1) => by
    subst ha
    exact upperZero_iv1
  hmacCounted := nofun
  idleNoSlack := fun _ => hslack

/-- An HMAC computation begins with its ipad block compressed and counted. -/
theorem inv_hmacInitEffect (alg : Alg) (k : Nat) {s : State} (hslack : s.slack = 0) :
    (hmacInitEffect alg k s).finish.Inv where
  busyNoError := nofun
  countAligned := fun _ => Nat.dvd_refl 64
  freshIsReset := nofun
  sha1UpperZero := fun (ha : alg = .sha1) => by
    subst ha
    exact upperZero_iv1.compress _
  hmacCounted := fun _ => Nat.le_refl 64
  idleNoSlack := fun _ => hslack

/-- BLOCK adds 64 to COUNT, which does not wrap below 2^61. -/
theorem State.Inv.blockEffect {s : State} (h : s.Inv) (hslack : s.slack = 0) (hp : s.phase = .accumulating)
    (hc : s.count.toNat + 64 < 2 ^ 61) : (blockEffect s).finish.Inv := by
  have hcount : (Machine.blockEffect s).finish.count.toNat = s.count.toNat + 64 := BitVec.toNat_add_of_lt hc
  exact
    { busyNoError := nofun
      countAligned := fun _ => hcount ▸ Nat.dvd_add_self_right.2 (h.countAligned hp)
      freshIsReset := fun hf => by simp [hp] at hf
      sha1UpperZero := fun ha => upperZero_blockEffect ha (h.sha1UpperZero ha)
      hmacCounted := fun _ => hcount ▸ Nat.le_add_left 64 _
      idleNoSlack := fun _ => hslack }

/-- FINAL n adds n to COUNT, which does not wrap either, and leaves ACCUMULATING. -/
theorem State.Inv.finalEffect {s : State} {n : Nat} (h : s.Inv) (hslack : s.slack = 0) (hp : s.phase = .accumulating)
    (hn : n ≤ 63) : (finalEffect n s).finish.Inv where
  busyNoError := nofun
  countAligned := nofun
  freshIsReset := nofun
  sha1UpperZero := fun ha => upperZero_finalDigest n ha (h.sha1UpperZero ha)
  hmacCounted := fun hm => by
    rw [finish_count, h.finalEffect_count_toNat hp hn]
    exact (h.hmacCounted hm).trans (Nat.le_add_right _ _)
  idleNoSlack := fun _ => hslack

theorem Completes.inv {i : Instr} {s t : State} (hc : Completes s i t) (hs : s.Inv) (hslack : s.slack = 0) : t.Inv := by
  cases hc with
  | init alg => exact inv_initEffect _ hslack
  | block hp hc => exact hs.blockEffect hslack hp hc
  | final n hn hp => exact hs.finalEffect hslack hp hn
  | hmacInit alg k => exact inv_hmacInitEffect _ k hslack

/-! ### The obligations of 60_exceptions.md -/

/-- Settles O60: the engine's step is taken with no `slack` left and raises or completes, and the host's turn keeps each clause. -/
theorem stepKeepsInvariant : Obligations.StepKeepsInvariant := by
  intro s t hs h
  obtain ⟨he, hengine⟩ | ⟨-, hhost⟩ := step_next h
  · obtain ⟨-, hslack, -⟩ := engineTurn_iff.1 he
    obtain ⟨c, -, rfl⟩ | ⟨i, -, hc⟩ := hengine
    · exact hs.raise c hslack
    · exact hc.inv hs hslack
  · exact hhost.inv hs

/-- Settles O19: a completed command leaves ERR 0, so the next state is the error's. -/
theorem errorsArePrecise : Obligations.ErrorsArePrecise := by
  refine ⟨fun i s t h herr => ?_, fun s t he h herr => ?_⟩
  · obtain ⟨c, -, rfl⟩ | hc := exec_next h
    · rfl
    · exact absurd hc.err herr
  · rw [step_engine he] at h
    obtain ⟨c, -, rfl⟩ | ⟨i, -, hc⟩ := engineStep_next h
    · rfl
    · exact absurd hc.err herr

/-- Settles O20: FINAL n completes only with n ≤ 63 in ACCUMULATING, where the invariant bounds COUNT + n. -/
theorem finalLengthIsNeverTruncated : Obligations.FinalLengthIsNeverTruncated := by
  intro n s t hs h herr
  obtain ⟨c, hne, rfl⟩ | hc := exec_next h
  · exact absurd herr hne
  · cases hc with
    | final n hn hp =>
      have hlt : s.count.toNat + n < 2 ^ 61 := hs.finalLength_lt hp hn
      exact ⟨hs.finalEffect_count_toNat hp hn, hlt, by omega⟩

/-- What a core's step makes of a platform: nothing where there is no core k, else core k alone replaced by its next state. -/
theorem stepAt_next {k : Nat} {p q : Platform} (h : p.stepAt k = .next q) :
    q = p ∨ ∃ s t, p[k]? = some s ∧ step s = .next t ∧ q = p.set k t := by
  unfold Platform.stepAt at h
  split at h
  · exact .inl (Host.Outcome.next.inj h).symm
  · next s hk =>
    split at h
    · next t hstep => exact .inr ⟨s, t, hk, hstep, (Host.Outcome.next.inj h).symm⟩
    · cases h
    · cases h

/-- Settles O23: at most the list's element k is replaced. -/
theorem coresAreIndependent : Obligations.CoresAreIndependent := by
  intro k j p q h hj
  obtain rfl | ⟨s, t, -, -, rfl⟩ := stepAt_next h
  · exact ⟨rfl, rfl⟩
  · exact ⟨List.length_set, List.getElem?_set_ne hj.symm⟩

/-- Settles O54: with BUSY = 0 the engine has no step, and the host's idle turn moves no element. -/
theorem idleCoreKeepsItsState : Obligations.IdleCoreKeepsItsState := by
  intro s hb hq
  have he : s.engineTurn = false := by simp [State.engineTurn, hb]
  exact ⟨s.turn [] none, step_idle he hq, turn_sameCore s [] none, rfl, rfl⟩

end Sys2Proof.Machine

/-! Reset asserted and released, nothing done in between, and an accepted command coming to its end whatever permitted accesses
the host makes (70_reset_and_hazards.md R270, R271, R283). -/

namespace Sys2Proof.Machine

open Sys2Proof

/-! ### The reset input -/

/-- A release leaves the reset values of all state elements (R270). -/
theorem leaveReset_sameCore (s : State) (rest : List HostOp) : State.reset.SameCore (s.leaveReset rest) := by
  constructor <;> rfl

/-- With reset asserted and not released the host's turn moves only the host's side, and answers nothing. -/
theorem HostStep.frame_of_inReset {s t : State} (h : HostStep s t) (hr : s.rst = true)
    (hq : s.inbox.head? ≠ some (.resetInput false)) : s.SameCore t ∧ t.rst = true ∧ t.reply = none := by
  cases h with
  | idle => exact ⟨turn_sameCore s _ _, hr, rfl⟩
  | assertReset => exact ⟨by constructor <;> rfl, rfl, rfl⟩
  | inReset => exact ⟨turn_sameCore s _ _, hr, rfl⟩
  | releaseReset rest hq' => exact absurd (by rw [hq']; rfl) hq
  | resetStaysReleased _ _ hr' | read _ _ _ hr' | write _ _ _ _ hr' | wait _ _ hr' => simp [hr] at hr'

/-- Settles O52: the release is one step to the reset values from any state, so also from the one the assertion leaves. -/
theorem resetRestoresEveryElement : Obligations.ResetRestoresEveryElement := by
  refine ⟨fun s rest hr hq => ?_, fun s rest he hq => ?_⟩
  · exact ⟨_, step_releaseReset hr hq, leaveReset_sameCore s rest, rfl, rfl⟩
  · have hassert := step_assertReset he hq
    have hrelease := step_releaseReset (s := { s.turn (.resetInput false :: rest) none with rst := true }) rfl rfl
    exact ⟨_, (run_succ hassert 1).trans (run_one hrelease), leaveReset_sameCore _ rest, rfl, rfl⟩

/-- Settles O53: in reset the engine has no step, and the host's turn uses up its operation. -/
theorem nothingHappensInReset : Obligations.NothingHappensInReset := by
  intro s hr hq
  have he : s.engineTurn = false := by simp [State.engineTurn, hr]
  obtain ⟨t, hstep⟩ := step_total_inReset hr
  exact ⟨t, hstep, (hostStep_of_step he hstep).frame_of_inReset hr hq⟩

/-! ### A command on its way to its end -/

/-- A command is accepted and not performed, reset is not asserted, and no access in store makes the machine stop. -/
structure State.Running (s : State) : Prop where
  busy : s.busy = true
  rst : s.rst = false
  wellBehaved : s.hostWellBehaved = true

/-- The head of a well-behaved host's queue is accepted, and the rest of it is well-behaved. -/
theorem hostWellBehaved_of_cons {s : State} {op : HostOp} {rest : List HostOp} (h : s.hostWellBehaved = true)
    (hq : s.inbox = op :: rest) : op.accepted = true ∧ rest.all HostOp.accepted = true := by
  simpa [State.hostWellBehaved, hq] using h

theorem not_refusedAccess_of_hostWellBehaved {s : State} (h : s.hostWellBehaved = true) (off width : Nat) :
    ¬ s.RefusedAccess off width := by
  rintro ⟨hp, hq⟩
  have haccepted : permitted off width = true := by
    obtain hq | ⟨v, hq⟩ := hq
    all_goals
      obtain ⟨rest, hq⟩ := List.head?_eq_some_iff.1 hq
      exact (hostWellBehaved_of_cons h hq).1
  simp [hp] at haccepted

/-- A turn that passes leaves the command running, with what the host still has in store. -/
theorem State.Running.turn {s : State} (h : s.Running) {rest : List HostOp} (hq : rest.all HostOp.accepted = true)
    (answer : Option Word) : (s.turn rest answer).Running :=
  ⟨h.busy, h.rst, hq⟩

/-- While BUSY = 1 no write moves LATENCY's count: CMD accepts no command. -/
theorem Written.slack_of_busy {s t : State} {v : Word} {r : Reg} (h : Written s v r t) (hb : s.busy = true) :
    t.slack = s.slack := by
  cases h with
  | accepted hidle => simp [hb] at hidle
  | _ => rfl

/-- Whatever permitted access a host's turn performs, the command is one turn nearer its end. -/
theorem HostStep.running {s t : State} (h : HostStep s t) (hs : s.Running) : t.Running ∧ t.slack = s.slack - 1 := by
  have hnext {op : HostOp} {rest : List HostOp} (hq : s.inbox = op :: rest) := hostWellBehaved_of_cons hs.wellBehaved hq
  cases h with
  | idle => exact ⟨hs.turn rfl none, rfl⟩
  | assertReset rest hq | releaseReset rest hq | resetStaysReleased rest hq => exact absurd (hnext hq).1 (by decide)
  | inReset op rest hq hop hr => simp [hs.rst] at hr
  | read off rest hq =>
    obtain hread | hread := hostRead_cases s (regAt off)
    all_goals
      rw [hread]
      exact ⟨⟨hs.busy, hs.rst, (hnext hq).2⟩, rfl⟩
  | write off v rest hq =>
    have hw := hostWrite_written (s.turn rest none) (regAt off) v
    obtain ⟨-, -, -, hbusy⟩ := hw.operands_of_busy hs.busy
    have hbehaved : (hostWrite (s.turn rest none) (regAt off) v).hostWellBehaved = true := by
      rw [State.hostWellBehaved, hostWrite_inbox]
      exact (hnext hq).2
    exact ⟨⟨hbusy, (hostWrite_rst _ _ _).trans hs.rst, hbehaved⟩, hw.slack_of_busy hs.busy⟩
  | wait rest hq =>
    rw [performWait, if_pos hs.busy]
    exact ⟨hs.turn (by rw [← hq]; exact hs.wellBehaved) _, rfl⟩

/-- Before its time has come, a running command is brought one turn nearer its end. -/
theorem State.Running.step_of_slack_succ {s : State} {n : Nat} (hs : s.Running) (hn : s.slack = n + 1) :
    ∃ t, step s = .next t ∧ t.Running ∧ t.slack = n := by
  have he : s.engineTurn = false := by simp [State.engineTurn, hn]
  obtain ⟨t, hstep⟩ :=
    step_total_of_no_refusedAccess ⟨he, hs.rst⟩ (not_refusedAccess_of_hostWellBehaved hs.wellBehaved)
  obtain ⟨ht, hslack⟩ := (hostStep_of_step he hstep).running hs
  exact ⟨t, hstep, ht, by omega⟩

/-- When its time has come, a running command is ended by the engine's step. -/
theorem State.Running.step_of_slack_zero {s : State} (hs : s.Running) (hn : s.slack = 0) :
    ∃ t, step s = .next t ∧ t.busy = false := by
  obtain ⟨t, ht⟩ := engineStep_total s
  exact ⟨t, (step_engine (engineTurn_iff.2 ⟨hs.busy, hn, hs.rst⟩)).trans ht, engineStep_busy ht⟩

/-- A running command ends after its remaining LATENCY and one engine step (R283). -/
theorem State.Running.ends {s : State} (hs : s.Running) : ∃ t, run (s.slack + 1) s = .next t ∧ t.busy = false := by
  induction hn : s.slack generalizing s with
  | zero =>
    obtain ⟨t, hstep, hbusy⟩ := hs.step_of_slack_zero hn
    exact ⟨t, run_one hstep, hbusy⟩
  | succ n ih =>
    obtain ⟨u, hstep, hu, hslack⟩ := hs.step_of_slack_succ hn
    rw [run_succ hstep]
    exact ih hu hslack

/-- Settles O55: each host turn takes one from the command's `slack`, and at 0 the engine ends it. -/
theorem acceptedCommandCompletes : Obligations.AcceptedCommandCompletes := fun _ hb hr hq => State.Running.ends ⟨hb, hr, hq⟩

end Sys2Proof.Machine
